-- ==== Sys2Proof/Word.lean ====
section
/-!
DEFINITION. The plain types the codec block works on: bytes, byte sequences, the two formats,
signs, NaN payload tokens, abstract numeric values and the five classes.
Rules of spec/: 00_scope.md R7, R10, R11, R15; 30_encoding.md R63, R66.
-/

namespace Sys2Proof

/-- One 8-bit unsigned value of a byte sequence; bit 7 is the most significant (R11). -/
abbrev Byte := BitVec 8

/-- `byte[n]`: an ordered sequence of `n` bytes, byte 0 first (R11). -/
abbrev Bytes (n : Nat) := Vector Byte n

/-- The two wire formats of the block (R2, R61, R62). -/
inductive Fmt where
  | binary64
  | binary32
  deriving DecidableEq, Repr, Inhabited

/-- The sign `s` of R15: `plus` stands for 0 and `minus` for 1 (1 = negative). -/
inductive Sign where
  | plus
  | minus
  deriving DecidableEq, Repr, Inhabited

/-- The payload `pl` of a NaN on a numeric port: an opaque token (R15, R28).
No rule reads one. DESIGN CHOICE (notes/assumptions/1.md): tokens are natural numbers. -/
abbrev Payload := Nat

/-- An abstract value on a numeric port, `NumVal` (R15).
In `fin s a` the value is `(-1)^s * a`, and R15 takes `a` positive: WellFormed checks it. -/
inductive NumVal where
  | zero (s : Sign)
  | inf (s : Sign)
  | nan (s : Sign) (pl : Payload)
  | fin (s : Sign) (a : Rat)
  deriving DecidableEq, Repr, Inhabited

/-- `sign(v)`, the `s` of any constructor (R15). -/
@[simp] def NumVal.sign : NumVal → Sign
  | .zero s => s
  | .inf s => s
  | .nan s _ => s
  | .fin s _ => s

/-- Whether a value is a NaN, of any sign and payload. -/
@[simp] def NumVal.isNaN : NumVal → Bool
  | .nan _ _ => true
  | .zero _ => false
  | .inf _ => false
  | .fin _ _ => false

/-- The magnitude `a` of a finite value; the other constructors carry none, and no rule reads it there. -/
@[simp] def NumVal.magnitude : NumVal → Rat
  | .fin _ a => a
  | .zero _ => 0
  | .inf _ => 0
  | .nan _ _ => 0

/-- The three unsigned fields `(s, E, F)` of an encoded word (R63), as exact numbers: the
algorithm computes `E` and `F` without a width, and R100 says they fit their fields. -/
structure Fields where
  s : Sign
  E : Nat
  F : Nat
  deriving DecidableEq, Repr, Inhabited

/-- The five classes of an encoded word (R66) and of an encoder input (R93). -/
inductive ValueClass where
  | zero
  | subnormal
  | normal
  | infinite
  | nan
  deriving DecidableEq, Repr, Inhabited

end Sys2Proof
end

