-- ==== Sys2Proof/Config.lean ====
section
/-!
DEFINITION. The open parameters of 00_scope.md R9 and the free completion order of 60_exceptions.md R165.
A constant declared `opaque` has no body: no proof can see its value, so whatever is proved
holds for every value. `WIDE_ENC32` is the one parameter that decides what a request gives; it
stands in State as plain data (Machine/State.lean) so that both of its values can be run, and only
its default is here. `NATIVE_REPR64` and `NATIVE_REPR32` are arguments (Machine/Native.lean).
-/

namespace Sys2Proof

/-- `LATENCY` ranges over a number of steps, or unbounded but finite (R9). -/
inductive Latency where
  | steps (n : Nat)
  | unboundedButFinite
  deriving DecidableEq, Repr, Inhabited

/-- `CANON_PAYLOAD`: the payload of every NaN the block produces on a numeric port, an opaque
token fixed for a model (R9, R28, R126). OPEN in the spec: a free value. -/
opaque Config.canonPayload : Payload

/-- `LATENCY`: the time from request to response. OPEN in the spec: no rule depends on it (R189)
and nothing in the model reads it (notes/assumptions/7.md). -/
opaque Config.latency : Latency

/-- Which outstanding request the block completes next, one free number for each completion. OPEN in the spec: the
completion order of concurrent requests is not fixed (R165, 92_eei_decisions.md D13). -/
opaque Config.completionOrder : Nat → Nat

/-- How many turns after turn `k` the block next takes its oldest request: finite, and otherwise free. This is the
fairness of the order, since every request is eventually answered (R189, notes/assumptions/6.md). -/
opaque Config.oldestWithin : Nat → Nat

/-- The default of `WIDE_ENC32` (R9: `false`). -/
def Config.wideEnc32Default : Bool := false

end Sys2Proof
end

