-- ==== Sys2Proof/Machine/Format.lean ====
section
/-!
DEFINITION. The constants of the two formats, the bit-field operations, and the mapping between
words and byte sequences.
Rules of spec/: 00_scope.md R7, R10; 20_memory.md R43; 30_encoding.md R61 to R66, R68.
-/

namespace Sys2Proof

/-- `N`: word width in bits (R7). -/
abbrev Fmt.N : Fmt → Nat
  | .binary64 => 64
  | .binary32 => 32

/-- `NB = N/8`: bytes per word (R7). -/
abbrev Fmt.NB (fmt : Fmt) : Nat := fmt.N / 8

/-- `W`: exponent field width (R7). -/
def Fmt.W : Fmt → Nat
  | .binary64 => 11
  | .binary32 => 8

/-- `T`: fraction field width (R7). -/
def Fmt.T : Fmt → Nat
  | .binary64 => 52
  | .binary32 => 23

/-- `P = T + 1`: precision (R7, 90_conflicts.md C1). -/
def Fmt.P (fmt : Fmt) : Nat := fmt.T + 1

/-- `BIAS`: exponent bias of the format (R7). -/
def Fmt.bias : Fmt → Nat
  | .binary64 => 1023
  | .binary32 => 127

/-- `NORM_OFFSET = BIAS - 1` (R7, 90_conflicts.md C2). -/
def Fmt.normOffset (fmt : Fmt) : Nat := fmt.bias - 1

/-- `EMAX_FIELD = 2^W - 1`: the all-ones exponent field (R7). -/
def Fmt.emaxField (fmt : Fmt) : Nat := 2 ^ fmt.W - 1

/-- `EMAX_FIN = 2^W - 2`: the maximum finite exponent field (R7). -/
def Fmt.emaxFin (fmt : Fmt) : Nat := 2 ^ fmt.W - 2

/-- `EMIN = 1 - BIAS`: the minimum normal exponent (R7). -/
def Fmt.emin (fmt : Fmt) : Int := 1 - fmt.bias

/-- `SUB_EXP = 1 - BIAS - T`: the subnormal scale exponent (R7, 90_conflicts.md C6). -/
def Fmt.subExp (fmt : Fmt) : Int := 1 - fmt.bias - fmt.T

/-- `QNAN_BIT = P - 2`: the fraction bit of the canonical quiet NaN (R7, R68). -/
def Fmt.qnanBit (fmt : Fmt) : Nat := fmt.P - 2

/-- An `N`-bit word of a format (R10). -/
abbrev Word (fmt : Fmt) := BitVec fmt.N

/-- The bit of a sign: 1 = negative (R15, R61, R62). -/
def Sign.bit : Sign → Nat
  | .plus => 0
  | .minus => 1

/-- The sign a sign bit stands for (R61, R62). -/
def Sign.ofBit (n : Nat) : Sign := if n = 0 then .plus else .minus

namespace Machine

/-- `w[hi:lo] = floor(w / 2^lo) mod 2^(hi-lo+1)` (R10). -/
def slice (w hi lo : Nat) : Nat := w / 2 ^ lo % 2 ^ (hi - lo + 1)

/-- `unpack(w) = (s, E, F)`: every field unsigned (R63, R71, R122). -/
def unpack (fmt : Fmt) (w : Word fmt) : Fields where
  s := Sign.ofBit (slice w.toNat (fmt.N - 1) (fmt.N - 1))
  E := slice w.toNat (fmt.N - 2) fmt.T
  F := slice w.toNat (fmt.T - 1) 0

/-- `pack(s, E, F) = s * 2^(N-1) + E * 2^T + F` (R65). -/
def pack (fmt : Fmt) (f : Fields) : Word fmt :=
  BitVec.ofNat fmt.N (f.s.bit * 2 ^ (fmt.N - 1) + f.E * 2 ^ fmt.T + f.F)

/-- `bytes(w)[k] = w[N-1-8k : N-8-8k]`: the most significant byte first (R43, R64). -/
def bytes (fmt : Fmt) (w : Word fmt) : Bytes fmt.NB :=
  Vector.ofFn fun k => BitVec.ofNat 8 (slice w.toNat (fmt.N - 1 - 8 * k.val) (fmt.N - 8 - 8 * k.val))

/-- `word(b)`, the sum of `b[k] * 2^(N-8-8k)` (R64). -/
def word (fmt : Fmt) (b : Bytes fmt.NB) : Word fmt :=
  BitVec.ofNat fmt.N
    ((List.finRange fmt.NB).map fun k => b[k].toNat * 2 ^ (fmt.N - 8 - 8 * k.val)).sum

/-- The class of an encoded word, from its fields alone; the sign takes no part (R66). -/
def wordClass (fmt : Fmt) (f : Fields) : ValueClass :=
  if f.E = 0 then
    if f.F = 0 then .zero else .subnormal
  else if f.E = fmt.emaxField then
    if f.F = 0 then .infinite else .nan
  else .normal

end Machine
end Sys2Proof
end

