-- ==== Sys2Proof/Machine/Operands.lean ====
section
/-!
DEFINITION. Exact arithmetic on magnitudes, the normalisation primitive, the classes of an encoder
operand, and the value sets an operand is admitted from.
Rules of spec/: 00_scope.md R12, R13; 10_state.md R26, R27; 41_encode.md R93.
-/

namespace Sys2Proof.Machine

/-- `2^k` as a rational, for any integer `k` (R12). -/
def pow2 : Int → Rat
  | .ofNat n => ((2 ^ n : Nat) : Rat)
  | .negSucc n => mkRat 1 (2 ^ (n + 1))

/-- The `floor` of a magnitude as an unsigned number (R12, R17 "Truncation"). -/
def truncate (x : Rat) : Nat := x.floor.toNat

/-- The exponent of `normalize`: the `e` with `2^(e-1) <= a < 2^e` (R13). The lengths of the
numerator and the denominator give it up to one. -/
def normExponent (a : Rat) : Int :=
  let k : Int := (a.num.toNat.log2 : Int) - (a.den.log2 : Int)
  if a < pow2 k then k else k + 1

/-- `normalize(a) = (m, e)` with `a = m * 2^e` and `1/2 <= m < 1`, for `a > 0` (R13). -/
def scientificForm (a : Rat) : Rat × Int :=
  let e := normExponent a
  (a * pow2 (-e), e)

/-- The class of an encoder operand for a target format, tested on the magnitude (R93). -/
def magnitudeClass (fmt : Fmt) : NumVal → ValueClass
  | .zero _ => .zero
  | .inf _ => .infinite
  | .nan _ _ => .nan
  | .fin _ a => if a < pow2 fmt.emin then .subnormal else .normal

/-- The scale at which a magnitude is an integer of at most `P` bits if it is a value of the format:
the exponent of the last place of `a`, not below `SUB_EXP`. -/
def lastPlace (fmt : Fmt) (a : Rat) : Int := max (normExponent a - fmt.P) fmt.subExp

/-- Whether `a = M * 2^q` for some `1 <= M < 2^P` and `SUB_EXP <= q <= BIAS - T` (R26). -/
def isMagnitudeOf (fmt : Fmt) (a : Rat) : Bool :=
  decide (0 < a) && decide ((a * pow2 (-lastPlace fmt a)).den = 1)
    && decide (lastPlace fmt a ≤ (fmt.bias : Int) - fmt.T)

/-- Membership in `V64` and `V32`: the values a word of the format can denote (R26). -/
def inValueSet (fmt : Fmt) : NumVal → Bool
  | .zero _ => true
  | .inf _ => true
  | .nan _ _ => true
  | .fin _ a => isMagnitudeOf fmt a

/-- `A_ENC64 = V64` (R27). -/
def admittedEnc64 (v : NumVal) : Bool := inValueSet .binary64 v

/-- `A_ENC32`: `V32`, or `V64` when `WIDE_ENC32` is true (R27). -/
def admittedEnc32 (wide : Bool) (v : NumVal) : Bool :=
  inValueSet .binary32 v || (inValueSet .binary64 v && wide)

end Sys2Proof.Machine
end

