-- ==== Sys2Proof/Syntax.lean ====
section
/-!
DEFINITION. The four operations as syntax, one constructor per row of spec/opcode_table.json,
and the raw request a caller presents at the block's interface.
Rules of spec/: 00_scope.md R1; 10_state.md R24, R25; 30_encoding.md R69, R70, R74.
-/

namespace Sys2Proof

/-- One request `(op, in)` of the block with the operand its operation takes (R25).
The four constructors are the four rows of spec/opcode_table.json. -/
inductive Instr where
  /-- `ENC64`: encode a value as binary64 (R101). -/
  | enc64 (v : NumVal)
  /-- `DEC64`: decode a binary64 encoding (R129). -/
  | dec64 (b : Bytes 8)
  /-- `ENC32`: encode a value as binary32 (R102). -/
  | enc32 (v : NumVal)
  /-- `DEC32`: decode a binary32 encoding (R130). -/
  | dec32 (b : Bytes 4)
  deriving DecidableEq, Repr

/-- The four operations named by the op-select field (R70). -/
inductive Op where
  | enc64
  | dec64
  | enc32
  | dec32
  deriving DecidableEq, Repr

/-- What stands on the operand port of a raw request: a numeric value, or bytes, first byte first (R25). -/
inductive Operand where
  | num (v : NumVal)
  | bytes (b : List Byte)
  deriving DecidableEq, Repr

/-- A raw request: the 2-bit op-select field and an operand (R69). -/
structure RawRequest where
  op : BitVec 2
  operand : Operand
  deriving DecidableEq, Repr

/-- The response `out` of a transaction, of the type R25 gives the operation. -/
inductive Result where
  | bytes8 (b : Bytes 8)
  | bytes4 (b : Bytes 4)
  | num (v : NumVal)
  deriving DecidableEq, Repr

/-- Why the decoder rejects a raw request, by name. Every op-select value is assigned (R72);
what is rejected is an operand that is not of the type its `op` fixes (R69, R74). -/
inductive DecodeError where
  /-- An encode operation was given bytes where R25 gives it a `NumVal`. -/
  | operandNotNumeric
  /-- A decode operation was given a number where R25 gives it bytes. -/
  | operandNotBytes
  /-- A decode operation was given `got` bytes where its width is `want` (R74). -/
  | wrongByteCount (want got : Nat)
  /-- A `fin s a` whose `a` is not positive is not a `NumVal` (R15). -/
  | magnitudeNotPositive
  deriving DecidableEq, Repr

end Sys2Proof
end

