-- ==== Sys2Proof/WellFormed.lean ====
section
/-!
DEFINITION. Which terms of the syntax are requests at all: R15 takes the magnitude of a finite
value positive. The lengths of byte operands are in the types. Whether a well-formed operand is
ADMITTED by its operation (R27) is a question for the machine, not for the syntax.
-/

namespace Sys2Proof

/-- A `NumVal` of R15: the magnitude of `fin` is a positive rational. -/
def NumVal.wellFormed : NumVal → Bool
  | .zero _ => true
  | .inf _ => true
  | .nan _ _ => true
  | .fin _ a => decide (0 < a)

/-- A well-formed request: an encoder operand is a `NumVal` of R15. -/
def Instr.wellFormed : Instr → Bool
  | .enc64 v => v.wellFormed
  | .dec64 _ => true
  | .enc32 v => v.wellFormed
  | .dec32 _ => true

end Sys2Proof
end

