-- ==== Sys2Proof/Decode.lean ====
section
/-!
DEFINITION. The request decoder and encoder: which operation a raw request names and whether its
operand is of the type that operation takes. This is the op-select format of 30_encoding.md R69,
R70 and R74; the wire formats of the byte operands are Machine/Format.lean.
-/

namespace Sys2Proof

/-- `op[1]` selects the precision: 0 = binary64, 1 = binary32 (R69). -/
def Op.precision (op : BitVec 2) : Fmt := if op.getLsbD 1 then .binary32 else .binary64

/-- `op[0]` selects the direction: 1 = decode, 0 = encode (R69). -/
def Op.isDecode (op : BitVec 2) : Bool := op.getLsbD 0

/-- The operation of an op-select value; all four values are assigned (R69, R70, R72). -/
def Op.ofBits (op : BitVec 2) : Op :=
  match Op.precision op, Op.isDecode op with
  | .binary64, false => .enc64
  | .binary64, true => .dec64
  | .binary32, false => .enc32
  | .binary32, true => .dec32

/-- The op-select value of an operation (R70). -/
def Op.bits : Op → BitVec 2
  | .enc64 => 0b00
  | .dec64 => 0b01
  | .enc32 => 0b10
  | .dec32 => 0b11

/-- The numeric operand of an encode operation, or why it is none (R15, R25). -/
def numericOperand : Operand → Except DecodeError NumVal
  | .num v => if v.wellFormed then .ok v else .error .magnitudeNotPositive
  | .bytes _ => .error .operandNotNumeric

/-- The byte operand of a decode operation of width `n`, or why it is none (R25, R74). -/
def bytesOperand (n : Nat) : Operand → Except DecodeError (Bytes n)
  | .num _ => .error .operandNotBytes
  | .bytes b =>
    if h : b.length = n then .ok (Vector.mk b.toArray (by simpa using h))
    else .error (.wrongByteCount n b.length)

/-- The request a raw request stands for. Total: every raw request is read or rejected by name. -/
def decode (r : RawRequest) : Except DecodeError Instr :=
  match Op.ofBits r.op with
  | .enc64 => (numericOperand r.operand).map .enc64
  | .dec64 => (bytesOperand 8 r.operand).map .dec64
  | .enc32 => (numericOperand r.operand).map .enc32
  | .dec32 => (bytesOperand 4 r.operand).map .dec32

/-- The operation of a request. -/
def Instr.op : Instr → Op
  | .enc64 _ => .enc64
  | .dec64 _ => .dec64
  | .enc32 _ => .enc32
  | .dec32 _ => .dec32

/-- The operand of a request as it stands on the operand port (R25). -/
def Instr.operand : Instr → Operand
  | .enc64 v => .num v
  | .dec64 b => .bytes b.toList
  | .enc32 v => .num v
  | .dec32 b => .bytes b.toList

/-- The raw request that carries a request: its `op[1:0]` and its operand (R69, R70, R75). -/
def encode (i : Instr) : RawRequest := ⟨i.op.bits, i.operand⟩

/-- The operand port of a request written as ONE number, the bits `x` above the op-select field.
A decode operation reads `x` as its word, laid out most significant byte first (R64). An encode
operation's operand has no bits in the spec (R71): `x = 0`, no operand bits, stands for `+0`, and
any other `x` stays bytes, which the decoder rejects. Bits of `x` above a decode operation's 64 or 32
operand bits are dropped, so a number too long for its operand is read and not rejected; R74 fixes the length of
a byte operand and leaves the length of a number open. DESIGN CHOICE: notes/assumptions/4.md. -/
def operandOfNumber (op : Op) (x : Nat) : Operand :=
  match op with
  | .enc64 => if x = 0 then .num (.zero .plus) else .bytes [BitVec.ofNat 8 x]
  | .dec64 => .bytes (Machine.bytes .binary64 (BitVec.ofNat 64 x)).toList
  | .enc32 => if x = 0 then .num (.zero .plus) else .bytes [BitVec.ofNat 8 x]
  | .dec32 => .bytes (Machine.bytes .binary32 (BitVec.ofNat 32 x)).toList

/-- A request written as one number: `op[1:0]` in its two lowest bits, followed by its operand (R75). Bits of
`w` above its `nbits` are no part of it (notes/assumptions/4.md). -/
def rawOfTableWord (nbits w : Nat) : RawRequest :=
  let x := w % 2 ^ nbits
  ⟨BitVec.ofNat 2 x, operandOfNumber (Op.ofBits (BitVec.ofNat 2 x)) (x / 4)⟩

/-- The request the decoder reads from a word of spec/opcode_table.json. -/
def decodeTableWord (nbits w : Nat) : Option Instr :=
  match decode (rawOfTableWord nbits w) with
  | .ok i => some i
  | .error _ => none

end Sys2Proof
end

