-- ==== Sys2Proof/Machine/State.lean ====
section
/-!
DEFINITION. The state of the model. THE BLOCK ITSELF HOLDS NO STATE (10_state.md R21, R35): no
field below is a register of the block, and no result depends on one of them but for the
parameter `wideEnc32`. The fields are the interface a transaction passes through (R24): requests
waiting for their one response, the ticket of the request being answered, and the responses given.
-/

namespace Sys2Proof.Machine

/-- Which transaction and whose: `id` numbers the transactions in the order they were issued,
`caller` names the agent that issued this one (R23, R165). Neither reaches the codec. -/
structure Ticket where
  id : Nat
  caller : Nat
  deriving DecidableEq, Repr

/-- An outstanding transaction: a request that has no response yet (R24, R165). -/
structure Request where
  ticket : Ticket
  raw : RawRequest
  deriving DecidableEq, Repr

/-- A response, with the ticket and the request it pairs with (R24, R165). -/
structure Response where
  ticket : Ticket
  request : Instr
  out : Result
  deriving DecidableEq, Repr

/-- The state of the model. -/
structure State where
  /-- Outstanding transactions, oldest first; any number of them (R165). -/
  requests : List Request
  /-- The ticket of the transaction the block is answering, or answered last. -/
  active : Ticket
  /-- Responses given, oldest first. -/
  responses : List Response
  /-- How many transactions have been issued: the next ticket's number. -/
  issued : Nat
  /-- How many times the block has taken a request: the argument of the free completion order. -/
  turn : Nat
  /-- The parameter `WIDE_ENC32`, fixed for the whole life of a model (R9, R31, R35): no step writes it. -/
  wideEnc32 : Bool
  deriving DecidableEq, Repr

/-- Faults: there are none. No operation raises an exception and there is no trap (R151, R156). -/
inductive Fault where
  deriving DecidableEq, Repr

/-- Why the model gives a request no result. None of these is a hardware exception, and no
caller-visible state records one (R157). -/
inductive Refusal where
  /-- Raised by an arm of `exec` whose instruction has no meaning yet; no arm raises it. Safe. -/
  | notModelled (mnemonic : String)
  /-- Raised at the boundary when a caller issues ENC64 or ENC32 on an operand outside the admitted set, and by the
  two operations themselves on such an operand (R27, R157). Safe. -/
  | operandNotAdmitted (op : Op)
  /-- Raised at the boundary, and by a step that takes it, on a raw request whose operand is not of the type its `op` fixes
  (R25, R74): it is no request the block defines. Safe. -/
  | malformedRequest (why : DecodeError)
  /-- Raised by a step with no request outstanding: the block takes no step that is not the answer
  to a request (R23). Safe. -/
  | noRequest
  /-- Raised by a line of a caller's program that names a variable no earlier line set (R75). Safe. -/
  | unsetVariable (name : String)
  deriving DecidableEq, Repr

/-- The model right after reset. The block has nothing to reset (R34, R181, R184): no transaction is
outstanding, none was issued, and `WIDE_ENC32` is its default (R9).
DESIGN CHOICE (notes/assumptions/3.md): the model's own counters and its ticket begin at 0. -/
def State.reset : State where
  requests := []
  active := ⟨0, 0⟩
  responses := []
  issued := 0
  turn := 0
  wideEnc32 := Config.wideEnc32Default

end Sys2Proof.Machine
end

