-- ==== Sys2Proof/Machine/Ops.lean ====
section
/-!
DEFINITION. What happens at the block's interface: a caller issues a request that passes the
boundary, the block takes one of the outstanding requests, the block writes its response, a platform reset abandons what is
outstanding. There is no exception to take and none to return from (60_exceptions.md R151, R156).
Rules of spec/: 00_scope.md R14; 10_state.md R23, R24, R27; 60_exceptions.md R157, R165; 70_reset_and_hazards.md R181, R183,
R184, R189.
-/

namespace Sys2Proof.Machine

/-- Whether the operand of a request is admitted (R27); a byte operand always is. -/
def admitted (wide : Bool) : Instr → Bool
  | .enc64 v => admittedEnc64 v
  | .dec64 _ => true
  | .enc32 v => admittedEnc32 wide v
  | .dec32 _ => true

/-- The boundary of the model: the request a raw request stands for, or why it is refused. An encoder operand
outside the admitted set is refused here (R27, R157), and so is what is no request (notes/assumptions/5.md). -/
def boundary (wide : Bool) (raw : RawRequest) : Except Refusal Instr :=
  match decode raw with
  | .ok i => if admitted wide i then .ok i else .error (.operandNotAdmitted i.op)
  | .error why => .error (.malformedRequest why)

/-- A raw request waits for its answer, with a ticket no other transaction has (R23, R165). -/
def State.enqueue (caller : Nat) (raw : RawRequest) (s : State) : State :=
  { s with requests := s.requests ++ [⟨⟨s.issued, caller⟩, raw⟩], issued := s.issued + 1 }

/-- A caller issues a request: past the boundary it waits, and a request the boundary refuses makes the run
refused at once, whatever else is outstanding (R23, R157, R165). -/
def State.issue (caller : Nat) (raw : RawRequest) (s : State) : Host.Outcome State Fault Refusal :=
  match boundary s.wideEnc32 raw with
  | .ok _ => .next (s.enqueue caller raw)
  | .error why => .refused why

/-- `out <- v`: the one response of the transaction being answered (R14, R24). -/
def State.respond (i : Instr) (out : Result) (s : State) : State :=
  { s with responses := s.responses ++ [⟨s.active, i, out⟩] }

/-- The element at an index, and the others in their order. -/
def takeAt {α : Type} : List α → Nat → Option (α × List α)
  | [], _ => none
  | x :: xs, 0 => some (x, xs)
  | x :: xs, k + 1 => (takeAt xs k).map fun p => (p.1, x :: p.2)

/-- The choice `n` picks one of the outstanding requests; one alone is picked whatever `n` is (R165). -/
def choose {α : Type} : List α → Nat → Option (α × List α)
  | [], _ => none
  | [x], _ => some (x, [])
  | x :: y :: xs, n => takeAt (x :: y :: xs) (n % (xs.length + 2))

/-- Whether the block takes its oldest request at a turn: one that `oldestWithin` names from this turn or
an earlier one. There is always another such turn to come, so no request is passed over for ever (R189).
DESIGN CHOICE (notes/assumptions/6.md): such turns come again and again in a run with endlessly many platform resets
too. There R165 leaves open an order that takes a newer request before every reset, and the model shuts it out. -/
def takesOldest (turn : Nat) : Bool :=
  (List.range (turn + 1)).any fun k => k + Config.oldestWithin k == turn

/-- The choice of a turn: the oldest request where its time has come, and otherwise a free one (R165, R189). -/
def turnChoice (turn : Nat) : Nat := if takesOldest turn then 0 else Config.completionOrder turn

/-- The block takes an outstanding request, in the free and fair completion order (R165, R189, I10). -/
def State.accept (s : State) : Option (Request × State) :=
  (choose s.requests (turnChoice s.turn)).map fun p =>
    (p.1, { s with requests := p.2, active := p.1.ticket, turn := s.turn + 1 })

/-- A platform reset: outstanding transactions are abandoned with no response, the block has nothing
else to reset, and the parameters are not reset (R181, R183, R184). -/
def State.platformReset (s : State) : State := { s with requests := [] }

end Sys2Proof.Machine
end

