-- ==== Sys2Proof/Machine/Decoders.lean ====
section
/-!
DEFINITION. The decoder operations DEC64 and DEC32.
Rules of spec/: 42_decode.md R121 to R130.
-/

namespace Sys2Proof.Machine

/-- The magnitude of a subnormal: `F * 2^SUB_EXP` (R124). -/
def subnormalMagnitude (fmt : Fmt) (f : Fields) : Rat := (f.F : Rat) * pow2 fmt.subExp

/-- The magnitude of a normal: `(2^T + F) / 2^T * 2^(E - BIAS)` (R127). -/
def normalMagnitude (fmt : Fmt) (f : Fields) : Rat :=
  ((2 ^ fmt.T + f.F : Nat) : Rat) / pow2 fmt.T * pow2 ((f.E : Int) - fmt.bias)

/-- The value of the fields of a word, by its class, with the sign as the constructor's (R121, R123 to R128). -/
def decodeFields (fmt : Fmt) (f : Fields) : NumVal :=
  match wordClass fmt f with
  | .zero => .zero f.s
  | .subnormal => .fin f.s (subnormalMagnitude fmt f)
  | .infinite => .inf f.s
  | .nan => .nan f.s Config.canonPayload
  | .normal => .fin f.s (normalMagnitude fmt f)

/-- `DECODE(fmt, b)` (R121, R122). -/
def decodeValue (fmt : Fmt) (b : Bytes fmt.NB) : NumVal := decodeFields fmt (unpack fmt (word fmt b))

/-- `DEC64` (R129): total on every byte pattern. -/
def execDec64 (b : Bytes 8) (s : State) : Host.Outcome State Fault Refusal :=
  .next (s.respond (.dec64 b) (.num (decodeValue .binary64 b)))

/-- `DEC32` (R130): total on every byte pattern. -/
def execDec32 (b : Bytes 4) (s : State) : Host.Outcome State Fault Refusal :=
  .next (s.respond (.dec32 b) (.num (decodeValue .binary32 b)))

end Sys2Proof.Machine
end

