-- ==== Sys2Proof/Machine/Encoders.lean ====
section
/-!
DEFINITION. The encoder operations ENC64 and ENC32.
Rules of spec/: 41_encode.md R91 to R102; 60_exceptions.md R157.
-/

namespace Sys2Proof.Machine

/-- The fields of a subnormal: `E = 0`, `F = floor(m * 2^(e + NORM_OFFSET + P - 1))` (R97). -/
def subnormalFields (fmt : Fmt) (s : Sign) (a : Rat) : Fields :=
  let (m, e) := scientificForm a
  { s := s, E := 0, F := truncate (m * pow2 (e + fmt.normOffset + fmt.P - 1)) }

/-- The binary32 clamp: an exponent field above `EMAX_FIN` becomes an infinity (R99). -/
def clampFields (fmt : Fmt) (f : Fields) : Fields :=
  match fmt with
  | .binary64 => f
  | .binary32 => if fmt.emaxFin < f.E then { f with E := fmt.emaxField, F := 0 } else f

/-- The fields of a normal: `E = e + NORM_OFFSET`, `F = floor(m * 2^P) mod 2^T`, clamped (R98, R99). -/
def normalFields (fmt : Fmt) (s : Sign) (a : Rat) : Fields :=
  let (m, e) := scientificForm a
  clampFields fmt
    { s := s, E := (e + fmt.normOffset).toNat, F := truncate (m * pow2 fmt.P) % 2 ^ fmt.T }

/-- The sign, exponent and fraction ENCODE writes for a value: the sign is the value's own (R92), and
the class selects one of five computations (R91, R93 to R99). -/
def encodeFields (fmt : Fmt) (v : NumVal) : Fields :=
  match magnitudeClass fmt v with
  | .infinite => { s := v.sign, E := fmt.emaxField, F := 0 }
  | .nan => { s := v.sign, E := fmt.emaxField, F := 2 ^ fmt.qnanBit }
  | .zero => { s := v.sign, E := 0, F := 0 }
  | .subnormal => subnormalFields fmt v.sign v.magnitude
  | .normal => normalFields fmt v.sign v.magnitude

/-- `ENCODE(fmt, v)` (R91, R100). -/
def encodeValue (fmt : Fmt) (v : NumVal) : Bytes fmt.NB :=
  bytes fmt (pack fmt (encodeFields fmt v))

/-- `ENC64` (R101): an operand outside `V64` is refused (R157). -/
def execEnc64 (v : NumVal) (s : State) : Host.Outcome State Fault Refusal :=
  if admittedEnc64 v then .next (s.respond (.enc64 v) (.bytes8 (encodeValue .binary64 v)))
  else .refused (.operandNotAdmitted .enc64)

/-- `ENC32` (R102): an operand outside `A_ENC32` is refused (R157). -/
def execEnc32 (v : NumVal) (s : State) : Host.Outcome State Fault Refusal :=
  if admittedEnc32 s.wideEnc32 v then .next (s.respond (.enc32 v) (.bytes4 (encodeValue .binary32 v)))
  else .refused (.operandNotAdmitted .enc32)

end Sys2Proof.Machine
end

