-- ==== Sys2Proof/Machine/Dispatch.lean ====
section
/-! DEFINITION. One arm per constructor of Instr, each a call of that operation's own meaning. -/

namespace Sys2Proof.Machine

def exec (i : Instr) (s : State) : Host.Outcome State Fault Refusal :=
  match i with
  | .enc64 v => Sys2Proof.Machine.execEnc64 v s
  | .dec64 b => Sys2Proof.Machine.execDec64 b s
  | .enc32 v => Sys2Proof.Machine.execEnc32 v s
  | .dec32 b => Sys2Proof.Machine.execDec32 b s

end Sys2Proof.Machine
end

