-- ==== Sys2Proof/Machine/Step.lean ====
section
/-!
DEFINITION. One step: one transaction, performed atomically (10_state.md R24).
-/

namespace Sys2Proof.Machine

/-- The block takes an outstanding request and answers it (R23, R24). With none outstanding it takes
no step. -/
def step (s : State) : Host.Outcome State Fault Refusal :=
  match s.accept with
  | none => .refused .noRequest
  | some (q, s') =>
    match decode q.raw with
    | .ok i => exec i s'
    | .error why => .refused (.malformedRequest why)

/-- A state whose one outstanding request is a word of spec/opcode_table.json: the next step takes
it, whatever the free completion order is. Caller 0 issued it (notes/assumptions/4.md). -/
def State.withFetchWord (s : State) (nbits w : Nat) : State :=
  s.platformReset.enqueue 0 (rawOfTableWord nbits w)

end Sys2Proof.Machine
end

