-- ==== Sys2Proof/Machine/Native.lean ====
section
/-!
DEFINITION. How a native `double` or `float` is carried on a numeric port: the open parameters
`NATIVE_REPR64` and `NATIVE_REPR32`, taken as arguments (00_scope.md R9), what they must satisfy
(10_state.md R28, R29), and the operations over native words.
-/

namespace Sys2Proof.Machine

/-- `NATIVE_REPR64` or `NATIVE_REPR32`: host words of any type `H`, the value a word carries, the word
the block writes for a value, and which words are quiet NaNs of the host (R9, R28). -/
structure NativeRepr (H : Type) where
  toVal : H → NumVal
  ofVal : NumVal → H
  isQuiet : H → Bool

/-- What R9, R28 and R29 require of the parameter of a format. -/
structure NativeRepr.Lawful {H : Type} (fmt : Fmt) (r : NativeRepr H) : Prop where
  /-- A host word carries a value of the format. -/
  toVal_mem : ∀ h, inValueSet fmt (r.toVal h) = true
  /-- Every non-NaN value of the format is carried by its word; `+0` and `-0` are two values. -/
  toVal_ofVal : ∀ v, inValueSet fmt v = true → v.isNaN = false → r.toVal (r.ofVal v) = v
  /-- A non-NaN value is carried by one word only. -/
  ofVal_toVal : ∀ h, (r.toVal h).isNaN = false → r.ofVal (r.toVal h) = h
  /-- A NaN is carried by a NaN of its sign (payloads collapsed). -/
  nan_sign : ∀ s pl, ∃ pl', r.toVal (r.ofVal (.nan s pl)) = .nan s pl'
  /-- The NaN the block produces is a quiet NaN of the host. -/
  canon_quiet : ∀ s, r.isQuiet (r.ofVal (.nan s Config.canonPayload)) = true

/-- Encode the value a native word carries. -/
def nativeEncode {H : Type} (fmt : Fmt) (r : NativeRepr H) (h : H) : Bytes fmt.NB :=
  encodeValue fmt (r.toVal h)

/-- Decode bytes to the native word of their value. -/
def nativeDecode {H : Type} (fmt : Fmt) (r : NativeRepr H) (b : Bytes fmt.NB) : H :=
  r.ofVal (decodeValue fmt b)

end Sys2Proof.Machine
end

