-- ==== Sys2Proof/Machine/Notation.lean ====
section
/-!
DEFINITION. The caller's side: programs in the transaction notation of 30_encoding.md R75, and a byte
buffer in a caller's memory (20_memory.md R42). Nothing here is state of the block.
-/

namespace Sys2Proof.Machine

/-- The operand of a line: a literal, or the name of an earlier `<dest>` (R75). -/
inductive Arg where
  | literal (x : Operand)
  | variable (name : String)
  deriving DecidableEq, Repr

/-- A line `<dest> = <OP> <operand>` (R75). -/
structure Line where
  dest : String
  op : Op
  arg : Arg
  deriving DecidableEq, Repr

/-- A caller's variables, newest first, beside the machine it uses (R75). -/
structure Caller where
  vars : List (String × Result)
  machine : State
  deriving DecidableEq, Repr

/-- A variable's contents as an operand (R75). -/
def operandOf : Result → Operand
  | .bytes8 b => .bytes b.toList
  | .bytes4 b => .bytes b.toList
  | .num v => .num v

/-- The operand a line names; a name no earlier line set is refused by name (R75). -/
def Arg.operand (vars : List (String × Result)) : Arg → Except Refusal Operand
  | .literal x => .ok x
  | .variable name =>
    match vars.lookup name with
    | some r => .ok (operandOf r)
    | none => .error (.unsetVariable name)

/-- A whole transaction at once: the caller presents a raw request and the block answers it (R24). -/
def State.transact (caller : Nat) (raw : RawRequest) (s : State) :
    Host.Outcome State Fault Refusal :=
  match decode raw with
  | .ok i => exec i { s with active := ⟨s.issued, caller⟩, issued := s.issued + 1 }
  | .error why => .refused (.malformedRequest why)

/-- The variables after a transaction: `<dest>` holds the newest response (R75). -/
def bindResponse (dest : String) (vars : List (String × Result)) (s : State) : List (String × Result) :=
  match s.responses.getLast? with
  | some r => (dest, r.out) :: vars
  | none => vars

/-- One line: one transaction, whose response `<dest>` receives (R75). -/
def runLine (caller : Nat) (l : Line) (c : Caller) : Host.Outcome Caller Fault Refusal :=
  match l.arg.operand c.vars with
  | .error why => .refused why
  | .ok x =>
    match c.machine.transact caller ⟨l.op.bits, x⟩ with
    | .next s => .next ⟨bindResponse l.dest c.vars s, s⟩
    | .fault e => .fault e
    | .refused why => .refused why

/-- A program, line by line; a refused line ends the run (R75, R157). -/
def runProgram (caller : Nat) : List Line → Caller → Host.Outcome Caller Fault Refusal
  | [], c => .next c
  | l :: ls, c =>
    match runLine caller l c with
    | .next c' => runProgram caller ls c'
    | .fault e => .fault e
    | .refused why => .refused why

/-- The cells a byte sequence fills in a caller's memory: byte `k` at the address plus `k` (R42). -/
def bufferCells {n : Nat} (addr : Nat) (b : Bytes n) : List Host.Cell :=
  (List.finRange n).map fun k => (addr + k.val, b[k])

/-- Whether a caller's memory holds a byte sequence in the buffer at an address (R42). -/
def holdsBuffer {n : Nat} (mem : List Host.Cell) (addr : Nat) (b : Bytes n) : Bool :=
  (List.finRange n).all fun k => mem.lookup (addr + k.val) == some b[k]

end Sys2Proof.Machine
end

