-- ==== Sys2Proof/Machine/Runs.lean ====
section
/-!
DEFINITION. The block among its callers: what can happen next, and the runs in which the block's step is
weakly fair.
Rules of spec/: 10_state.md R23; 60_exceptions.md R157, R165; 70_reset_and_hazards.md R183, R189.
-/

namespace Sys2Proof.Machine

/-- What happens next: the block answers a request, a caller issues one, the platform resets, or nothing
(R23, R183). -/
inductive Event where
  | step
  | issue (caller : Nat) (raw : RawRequest)
  | platformReset
  | idle
  deriving DecidableEq, Repr

/-- The outcome of an event. -/
def State.after (s : State) : Event → Host.Outcome State Fault Refusal
  | .step => step s
  | .issue caller raw => s.issue caller raw
  | .platformReset => .next s.platformReset
  | .idle => .next s

/-- A run, event by event. Once an event is refused the run is refused, and it has no state (R157). -/
def State.run : List Event → State → Host.Outcome State Fault Refusal
  | [], s => .next s
  | e :: es, s =>
    match s.after e with
    | .next t => State.run es t
    | .fault why => .fault why
    | .refused why => .refused why

/-- An endless run, event by event, that is weakly fair to the block: with requests outstanding it is not
kept from its step for ever (R189). A refusal ends a run, so an endless one has none (R157). -/
structure IsFairRun (state : Nat → State) (event : Nat → Event) : Prop where
  /-- Every event answers the next state. -/
  next : ∀ n, (state n).after (event n) = .next (state (n + 1))
  /-- From every moment on, the block steps or is seen with nothing outstanding. -/
  fair : ∀ n, ∃ m, n ≤ m ∧ (event m = .step ∨ (state m).requests = [])

end Sys2Proof.Machine
end

