-- ==== Sys2Proof/Safety.lean ====
section
/-!
DEFINITION. What counts as a safe run: every outstanding request is one the block defines, and every
response given is the one the block gives to that request alone.
Rules of spec/: 10_state.md R24, R27, R33; 20_memory.md R50; 60_exceptions.md R157, R165.
-/

namespace Sys2Proof.Machine

/-- The response to a request on a machine where nothing else ever happened: `f_op(in)` of R50. -/
def answer (wide : Bool) (i : Instr) : Option Result :=
  match exec i { State.reset with wideEnc32 := wide } with
  | .next t => t.responses.head?.map Response.out
  | .fault _ => none
  | .refused _ => none

/-- Whether an outstanding request is one the block defines. -/
def Request.isDefined (wide : Bool) (q : Request) : Bool :=
  match decode q.raw with
  | .ok i => admitted wide i
  | .error _ => false

/-- Every outstanding request is one the block defines: no step from here is refused while one waits.
Issuing keeps this, since the boundary lets no other request in (R157). -/
def State.Safe (s : State) : Prop := ∀ q ∈ s.requests, q.isDefined s.wideEnc32 = true

/-- A response is the one the block gives to its request alone, whatever came before (R33, R50). -/
def Response.IsRight (wide : Bool) (r : Response) : Prop := answer wide r.request = some r.out

/-- The invariant of the model. -/
structure State.Inv (s : State) : Prop where
  /-- Every response given is right for its request. -/
  responses_right : ∀ r ∈ s.responses, r.IsRight s.wideEnc32
  /-- Every ticket in use was issued. -/
  tickets_issued : ∀ k ∈ s.requests.map (·.ticket.id) ++ s.responses.map (·.ticket.id), k < s.issued
  /-- No two transactions share a ticket: a response pairs with one request. -/
  tickets_distinct : (s.requests.map (·.ticket.id) ++ s.responses.map (·.ticket.id)).Nodup

/-- The response a defined request gets, with its ticket: what the block owes the caller. -/
def Request.reply (wide : Bool) (q : Request) : Option Response :=
  match decode q.raw with
  | .ok i => (answer wide i).map fun out => ⟨q.ticket, i, out⟩
  | .error _ => none

/-- The number a value stands for, infinities included, as R133 orders values; a NaN is no number. -/
def number : NumVal → Option (WithBot (WithTop ℚ))
  | .zero _ => some ((0 : ℚ) : WithTop ℚ)
  | .inf .plus => some (⊤ : WithTop ℚ)
  | .inf .minus => some ⊥
  | .nan _ _ => none
  | .fin .plus a => some (a : WithTop ℚ)
  | .fin .minus a => some ((-a : ℚ) : WithTop ℚ)

end Sys2Proof.Machine
end

