-- ==== Sys2Proof/Certificates/Slice0/Obligations.lean ====
section
/-!
DEFINITION. The statements about the model, in the order of OBLIGATIONS.json. Numbers are written out
where a rule writes them, and powers of two are the library's, so that a statement says what its rule says and
not what the model computes.
-/

open Sys2Proof Sys2Proof.Machine

/-! ## Requests and their encoding -/

/-- R69, R70: op-select words with an operand, written out, and the numbers of spec/opcode_table.json,
read as the operation they stand for. An encode number has no operand bits and stands for `+0`:
the model's choice, notes/assumptions/4.md. -/
def Obligations.RequestWordsDecode : Prop :=
  decode ⟨0b00, .num (.zero .minus)⟩ = .ok (.enc64 (.zero .minus)) ∧
  decode ⟨0b01, .bytes [0x3F, 0xF0, 0, 0, 0, 0, 0, 1]⟩ = .ok (.dec64 #v[0x3F, 0xF0, 0, 0, 0, 0, 0, 1]) ∧
  decode ⟨0b10, .num (.inf .minus)⟩ = .ok (.enc32 (.inf .minus)) ∧
  decode ⟨0b11, .bytes [0x3F, 0x80, 0, 1]⟩ = .ok (.dec32 #v[0x3F, 0x80, 0, 1]) ∧
  decodeTableWord 8 0 = some (.enc64 (.zero .plus)) ∧
  decodeTableWord 8 1 = some (.dec64 #v[0, 0, 0, 0, 0, 0, 0, 0]) ∧
  decodeTableWord 8 2 = some (.enc32 (.zero .plus)) ∧
  decodeTableWord 8 3 = some (.dec32 #v[0, 0, 0, 0])

/-- R25, R69, R70, R74: a raw request is read as an instruction exactly when the instruction is well
formed and that raw request is its encoding. -/
def Obligations.DecodeEncodeAgree : Prop :=
  ∀ (r : RawRequest) (i : Instr), decode r = .ok i ↔ (i.wellFormed = true ∧ encode i = r)

/-- R72: (a) every op-select value is assigned; (b) every byte pattern is a legal decoder operand; (c)
every admitted value is a legal encoder operand, and any other is refused at the boundary. -/
def Obligations.NoIllegalEncodings : Prop :=
  (∀ op : BitVec 2, ∃ x i, decode ⟨op, x⟩ = .ok i) ∧
  (∀ (b : Bytes 8) (st : State), decode ⟨0b01, .bytes b.toList⟩ = .ok (.dec64 b) ∧ ∃ t, exec (.dec64 b) st = .next t) ∧
  (∀ (b : Bytes 4) (st : State), decode ⟨0b11, .bytes b.toList⟩ = .ok (.dec32 b) ∧ ∃ t, exec (.dec32 b) st = .next t) ∧
  (∀ (v : NumVal) (st : State), admittedEnc64 v = true →
    decode ⟨0b00, .num v⟩ = .ok (.enc64 v) ∧ ∃ t, exec (.enc64 v) st = .next t) ∧
  (∀ (v : NumVal) (st : State), admittedEnc32 st.wideEnc32 v = true →
    decode ⟨0b10, .num v⟩ = .ok (.enc32 v) ∧ ∃ t, exec (.enc32 v) st = .next t) ∧
  (∀ (v : NumVal) (st : State), admittedEnc64 v = false →
    exec (.enc64 v) st = .refused (.operandNotAdmitted .enc64)) ∧
  (∀ (v : NumVal) (st : State), admittedEnc32 st.wideEnc32 v = false →
    exec (.enc32 v) st = .refused (.operandNotAdmitted .enc32))

/-! ## Wire formats -/

/-- R61, R62, R63: the three fields of a word, bit by bit, and the biases of the formats. -/
def Obligations.FieldsOfWords : Prop :=
  (∀ w : BitVec 64, unpack .binary64 w =
    { s := if w.getLsbD 63 then .minus else .plus
      E := (w.extractLsb 62 52).toNat
      F := (w.extractLsb 51 0).toNat }) ∧
  (∀ w : BitVec 32, unpack .binary32 w =
    { s := if w.getLsbD 31 then .minus else .plus
      E := (w.extractLsb 30 23).toNat
      F := (w.extractLsb 22 0).toNat }) ∧
  Fmt.bias .binary64 = 1023 ∧ Fmt.bias .binary32 = 127

/-- R64: words and byte sequences, byte by byte, and that the two directions are inverse. -/
def Obligations.WordsAndBytes : Prop :=
  (∀ (fmt : Fmt) (w : Word fmt) (k : Fin fmt.NB),
    (bytes fmt w)[k].toNat = w.toNat / 2 ^ (fmt.N - 8 - 8 * k.val) % 256) ∧
  (∀ (fmt : Fmt) (b : Bytes fmt.NB),
    (word fmt b).toNat = ∑ k : Fin fmt.NB, b[k].toNat * 2 ^ (fmt.N - 8 - 8 * k.val)) ∧
  (∀ (fmt : Fmt) (w : Word fmt), word fmt (bytes fmt w) = w) ∧
  (∀ (fmt : Fmt) (b : Bytes fmt.NB), bytes fmt (word fmt b) = b) ∧
  (∀ w : BitVec 64, (bytes .binary64 w)[0].getLsbD 7 = w.getLsbD 63) ∧
  (∀ w : BitVec 32, (bytes .binary32 w)[0].getLsbD 7 = w.getLsbD 31) ∧
  (∀ w : BitVec 64, (unpack .binary64 w).E =
    (bytes .binary64 w)[0].toNat % 128 * 16 + (bytes .binary64 w)[1].toNat / 16) ∧
  (∀ w : BitVec 32, (unpack .binary32 w).E =
    (bytes .binary32 w)[0].toNat % 128 * 2 + (bytes .binary32 w)[1].toNat / 128)

/-- R65, R100: packing is the sum of the placed fields and unpacking is its inverse, on fields in
range; and what the encoders output is the bytes of packed fields that are always in range. -/
def Obligations.PackingIsInRange : Prop :=
  (∀ (fmt : Fmt) (f : Fields), f.E ≤ fmt.emaxField → f.F < 2 ^ fmt.T →
    (pack fmt f).toNat = f.s.bit * 2 ^ (fmt.N - 1) + f.E * 2 ^ fmt.T + f.F ∧
    unpack fmt (pack fmt f) = f) ∧
  (∀ (fmt : Fmt) (w : Word fmt), pack fmt (unpack fmt w) = w) ∧
  (∀ (fmt : Fmt) (v : NumVal), inValueSet .binary64 v = true →
    (encodeFields fmt v).E ≤ fmt.emaxField ∧ (encodeFields fmt v).F < 2 ^ fmt.T ∧
    encodeValue fmt v = bytes fmt (pack fmt (encodeFields fmt v)))

/-- R66: every word is in exactly one class, by its exponent and fraction fields alone. -/
def Obligations.ClassesOfWords : Prop :=
  ∀ (fmt : Fmt) (w : Word fmt),
    (wordClass fmt (unpack fmt w) = .zero ↔ (unpack fmt w).E = 0 ∧ (unpack fmt w).F = 0) ∧
    (wordClass fmt (unpack fmt w) = .subnormal ↔ (unpack fmt w).E = 0 ∧ (unpack fmt w).F ≠ 0) ∧
    (wordClass fmt (unpack fmt w) = .infinite ↔ (unpack fmt w).E = 2 ^ fmt.W - 1 ∧ (unpack fmt w).F = 0) ∧
    (wordClass fmt (unpack fmt w) = .nan ↔ (unpack fmt w).E = 2 ^ fmt.W - 1 ∧ (unpack fmt w).F ≠ 0) ∧
    (wordClass fmt (unpack fmt w) = .normal ↔ 1 ≤ (unpack fmt w).E ∧ (unpack fmt w).E ≤ 2 ^ fmt.W - 2) ∧
    (∀ s, wordClass fmt { unpack fmt w with s := s } = wordClass fmt (unpack fmt w))

/-- R67: how many words of a sign are in each class. -/
def Obligations.ClassCounts : Prop :=
  (∀ s : Sign,
    Nat.card { w : BitVec 64 // (unpack .binary64 w).s = s ∧ wordClass .binary64 (unpack .binary64 w) = .zero } = 1 ∧
    Nat.card { w : BitVec 64 // (unpack .binary64 w).s = s ∧ wordClass .binary64 (unpack .binary64 w) = .subnormal } = 2 ^ 52 - 1 ∧
    Nat.card { w : BitVec 64 // (unpack .binary64 w).s = s ∧ wordClass .binary64 (unpack .binary64 w) = .normal } = 2046 * 2 ^ 52 ∧
    Nat.card { w : BitVec 64 // (unpack .binary64 w).s = s ∧ wordClass .binary64 (unpack .binary64 w) = .infinite } = 1 ∧
    Nat.card { w : BitVec 64 // (unpack .binary64 w).s = s ∧ wordClass .binary64 (unpack .binary64 w) = .nan } = 2 ^ 52 - 1 ∧
    Nat.card { w : BitVec 64 // (unpack .binary64 w).s = s } = 2 ^ 63) ∧
  (∀ s : Sign,
    Nat.card { w : BitVec 32 // (unpack .binary32 w).s = s ∧ wordClass .binary32 (unpack .binary32 w) = .zero } = 1 ∧
    Nat.card { w : BitVec 32 // (unpack .binary32 w).s = s ∧ wordClass .binary32 (unpack .binary32 w) = .subnormal } = 2 ^ 23 - 1 ∧
    Nat.card { w : BitVec 32 // (unpack .binary32 w).s = s ∧ wordClass .binary32 (unpack .binary32 w) = .normal } = 254 * 2 ^ 23 ∧
    Nat.card { w : BitVec 32 // (unpack .binary32 w).s = s ∧ wordClass .binary32 (unpack .binary32 w) = .infinite } = 1 ∧
    Nat.card { w : BitVec 32 // (unpack .binary32 w).s = s ∧ wordClass .binary32 (unpack .binary32 w) = .nan } = 2 ^ 23 - 1 ∧
    Nat.card { w : BitVec 32 // (unpack .binary32 w).s = s } = 2 ^ 31)

/-- R45: `+1.0` is `3F 80 00 00` in binary32 and `3F F0 00 00 00 00 00 00` in binary64, and the first is
not how the second begins. DEC64 of no 8 bytes that begin with the first gives what DEC32 of the first gives. -/
def Obligations.WidthsDoNotMix : Prop :=
  (∀ st : State, exec (.enc32 (.fin .plus 1)) st =
    .next (st.respond (.enc32 (.fin .plus 1)) (.bytes4 #v[0x3F, 0x80, 0, 0]))) ∧
  (∀ st : State, exec (.enc64 (.fin .plus 1)) st =
    .next (st.respond (.enc64 (.fin .plus 1)) (.bytes8 #v[0x3F, 0xF0, 0, 0, 0, 0, 0, 0]))) ∧
  ¬ (encodeValue .binary32 (.fin .plus 1)).toList <+: (encodeValue .binary64 (.fin .plus 1)).toList ∧
  (∀ b : Bytes 8, b[0] = 0x3F → b[1] = 0x80 → b[2] = 0 → b[3] = 0 →
    decodeValue .binary64 b ≠ decodeValue .binary32 #v[0x3F, 0x80, 0, 0])

/-! ## Values -/

/-- R13: `normalize(a)` is the one pair `(m, e)` with `1/2 <= m < 1` and `a = m * 2^e`. -/
def Obligations.NormalizeIsScientificForm : Prop :=
  ∀ (a m : ℚ) (e : ℤ), 0 < a →
    (scientificForm a = (m, e) ↔ (1 / 2 ≤ m ∧ m < 1 ∧ a = m * 2 ^ e)) ∧
    (2 : ℚ) ^ ((scientificForm a).2 - 1) ≤ a ∧ a < (2 : ℚ) ^ (scientificForm a).2

/-- R26: the value sets, in the form the rule writes them; their finite parts are what finite words
decode to; and `V32` is a subset of `V64`. -/
def Obligations.ValueSets : Prop :=
  (∀ v : NumVal, inValueSet .binary64 v = true ↔
    match v with
    | .fin _ a => ∃ (M : ℕ) (q : ℤ), 1 ≤ M ∧ M < 2 ^ 53 ∧ -1074 ≤ q ∧ q ≤ 971 ∧ a = M * (2 : ℚ) ^ q
    | _ => True) ∧
  (∀ v : NumVal, inValueSet .binary32 v = true ↔
    match v with
    | .fin _ a => ∃ (M : ℕ) (q : ℤ), 1 ≤ M ∧ M < 2 ^ 24 ∧ -149 ≤ q ∧ q ≤ 104 ∧ a = M * (2 : ℚ) ^ q
    | _ => True) ∧
  (∀ (fmt : Fmt) (s : Sign) (a : ℚ), inValueSet fmt (.fin s a) = true ↔
    ∃ b : Bytes fmt.NB, (unpack fmt (word fmt b)).E < fmt.emaxField ∧ decodeValue fmt b = .fin s a) ∧
  (∀ v : NumVal, inValueSet .binary32 v = true → inValueSet .binary64 v = true)

/-- R93: the five classes of an encoder input, the last two split at the smallest normal value of the
target format, and that a value of the format is encoded to a word of its class. -/
def Obligations.ClassesOfInputs : Prop :=
  (∀ fmt s, magnitudeClass fmt (.zero s) = .zero) ∧
  (∀ fmt s, magnitudeClass fmt (.inf s) = .infinite) ∧
  (∀ fmt s pl, magnitudeClass fmt (.nan s pl) = .nan) ∧
  (∀ s a, (magnitudeClass .binary64 (.fin s a) = .subnormal ↔ a < (2 : ℚ) ^ (-1022 : ℤ)) ∧
    (magnitudeClass .binary64 (.fin s a) = .normal ↔ (2 : ℚ) ^ (-1022 : ℤ) ≤ a)) ∧
  (∀ s a, (magnitudeClass .binary32 (.fin s a) = .subnormal ↔ a < (2 : ℚ) ^ (-126 : ℤ)) ∧
    (magnitudeClass .binary32 (.fin s a) = .normal ↔ (2 : ℚ) ^ (-126 : ℤ) ≤ a)) ∧
  (∀ fmt v, inValueSet fmt v = true →
    wordClass fmt (unpack fmt (word fmt (encodeValue fmt v))) = magnitudeClass fmt v)

/-! ## The encoders -/

/-- R94, R95, R96, R68: zeros, infinities and NaNs of either sign and any payload, in both formats. -/
def Obligations.EncodeZeroInfinityNaN : Prop :=
  ∀ (s : Sign) (pl : Payload) (st : State),
    exec (.enc64 (.zero s)) st = .next (st.respond (.enc64 (.zero s))
      (.bytes8 #v[if s = .minus then 0x80 else 0, 0, 0, 0, 0, 0, 0, 0])) ∧
    exec (.enc64 (.inf s)) st = .next (st.respond (.enc64 (.inf s))
      (.bytes8 #v[if s = .minus then 0xFF else 0x7F, 0xF0, 0, 0, 0, 0, 0, 0])) ∧
    exec (.enc64 (.nan s pl)) st = .next (st.respond (.enc64 (.nan s pl))
      (.bytes8 #v[if s = .minus then 0xFF else 0x7F, 0xF8, 0, 0, 0, 0, 0, 0])) ∧
    exec (.enc32 (.zero s)) st = .next (st.respond (.enc32 (.zero s))
      (.bytes4 #v[if s = .minus then 0x80 else 0, 0, 0, 0])) ∧
    exec (.enc32 (.inf s)) st = .next (st.respond (.enc32 (.inf s))
      (.bytes4 #v[if s = .minus then 0xFF else 0x7F, 0x80, 0, 0])) ∧
    exec (.enc32 (.nan s pl)) st = .next (st.respond (.enc32 (.nan s pl))
      (.bytes4 #v[if s = .minus then 0xFF else 0x7F, 0xC0, 0, 0]))

/-- R92: the sign bit of what is encoded is the sign of the input, whatever its class. -/
def Obligations.EncodeKeepsSign : Prop :=
  ∀ (fmt : Fmt) (v : NumVal), inValueSet .binary64 v = true →
    (unpack fmt (word fmt (encodeValue fmt v))).s = v.sign

/-- R97: a subnormal input: `E = 0` and `F = floor(m * 2^(e + 1074))`, with `149` for binary32. It fits its field,
and it is 0 for no value of the target format. -/
def Obligations.EncodeSubnormal : Prop :=
  (∀ (s : Sign) (m : ℚ) (e : ℤ) (st : State), 1 / 2 ≤ m → m < 1 →
    admittedEnc64 (.fin s (m * 2 ^ e)) = true → m * 2 ^ e < (2 : ℚ) ^ (-1022 : ℤ) →
    1 ≤ ⌊m * 2 ^ (e + 1074)⌋₊ ∧ ⌊m * 2 ^ (e + 1074)⌋₊ < 2 ^ 52 ∧
    exec (.enc64 (.fin s (m * 2 ^ e))) st = .next (st.respond (.enc64 (.fin s (m * 2 ^ e)))
      (.bytes8 (bytes .binary64 (BitVec.ofNat 64 (s.bit * 2 ^ 63 + ⌊m * 2 ^ (e + 1074)⌋₊)))))) ∧
  (∀ (s : Sign) (m : ℚ) (e : ℤ) (st : State), 1 / 2 ≤ m → m < 1 →
    admittedEnc32 st.wideEnc32 (.fin s (m * 2 ^ e)) = true → m * 2 ^ e < (2 : ℚ) ^ (-126 : ℤ) →
    (inValueSet .binary32 (.fin s (m * 2 ^ e)) = true → 1 ≤ ⌊m * 2 ^ (e + 149)⌋₊) ∧
    ⌊m * 2 ^ (e + 149)⌋₊ < 2 ^ 23 ∧
    exec (.enc32 (.fin s (m * 2 ^ e))) st = .next (st.respond (.enc32 (.fin s (m * 2 ^ e)))
      (.bytes4 (bytes .binary32 (BitVec.ofNat 32 (s.bit * 2 ^ 31 + ⌊m * 2 ^ (e + 149)⌋₊))))))

/-- R98: a normal input: `E = e + NORM_OFFSET` and `F = floor(m * 2^P) mod 2^T`, by truncation; for ENC32
wherever the clamp of R99 does not apply. -/
def Obligations.EncodeNormal : Prop :=
  (∀ (s : Sign) (m : ℚ) (e : ℤ) (st : State), 1 / 2 ≤ m → m < 1 →
    admittedEnc64 (.fin s (m * 2 ^ e)) = true → (2 : ℚ) ^ (-1022 : ℤ) ≤ m * 2 ^ e →
    1 ≤ e + 1022 ∧ 2 ^ 52 ≤ ⌊m * 2 ^ 53⌋₊ ∧ ⌊m * 2 ^ 53⌋₊ < 2 ^ 53 ∧
    exec (.enc64 (.fin s (m * 2 ^ e))) st = .next (st.respond (.enc64 (.fin s (m * 2 ^ e)))
      (.bytes8 (bytes .binary64 (BitVec.ofNat 64
        (s.bit * 2 ^ 63 + (e + 1022).toNat * 2 ^ 52 + ⌊m * 2 ^ 53⌋₊ % 2 ^ 52)))))) ∧
  (∀ (s : Sign) (m : ℚ) (e : ℤ) (st : State), 1 / 2 ≤ m → m < 1 →
    admittedEnc32 st.wideEnc32 (.fin s (m * 2 ^ e)) = true → (2 : ℚ) ^ (-126 : ℤ) ≤ m * 2 ^ e →
    e + 126 ≤ 254 →
    1 ≤ e + 126 ∧ 2 ^ 23 ≤ ⌊m * 2 ^ 24⌋₊ ∧ ⌊m * 2 ^ 24⌋₊ < 2 ^ 24 ∧
    exec (.enc32 (.fin s (m * 2 ^ e))) st = .next (st.respond (.enc32 (.fin s (m * 2 ^ e)))
      (.bytes4 (bytes .binary32 (BitVec.ofNat 32
        (s.bit * 2 ^ 31 + (e + 126).toNat * 2 ^ 23 + ⌊m * 2 ^ 24⌋₊ % 2 ^ 23))))))

/-- R99: ENC32 clamps an exponent field above 254 to the infinity of the input's sign; ENC64 has no clamp. -/
def Obligations.EncodeClampsBinary32 : Prop :=
  (∀ f : Fields, clampFields .binary64 f = f) ∧
  ∀ (s : Sign) (m : ℚ) (e : ℤ) (st : State), 1 / 2 ≤ m → m < 1 →
    admittedEnc32 st.wideEnc32 (.fin s (m * 2 ^ e)) = true → 254 < e + 126 →
    exec (.enc32 (.fin s (m * 2 ^ e))) st = .next (st.respond (.enc32 (.fin s (m * 2 ^ e)))
      (.bytes4 #v[if s = .minus then 0xFF else 0x7F, 0x80, 0, 0]))

/-- R104: ENC32 on wide inputs rounds the magnitude toward zero, underflows to a signed zero below
`2^-149` and overflows to infinity at `2^128` and above; with the two results the rule writes out. -/
def Obligations.WideEnc32TowardZero : Prop :=
  (∀ (s : Sign) (a : ℚ) (st : State), st.wideEnc32 = true → inValueSet .binary64 (.fin s a) = true →
    ∃ b : Bytes 4, exec (.enc32 (.fin s a)) st = .next (st.respond (.enc32 (.fin s a)) (.bytes4 b)) ∧
      (a < (2 : ℚ) ^ (-149 : ℤ) → b = #v[if s = .minus then 0x80 else 0, 0, 0, 0]) ∧
      ((2 : ℚ) ^ (-149 : ℤ) ≤ a → a < (2 : ℚ) ^ (-126 : ℤ) →
        unpack .binary32 (word .binary32 b) = ⟨s, 0, ⌊a * 2 ^ 149⌋₊⟩) ∧
      ((2 : ℚ) ^ (-126 : ℤ) ≤ a → a < (2 : ℚ) ^ (128 : ℤ) →
        wordClass .binary32 (unpack .binary32 (word .binary32 b)) = .normal) ∧
      ((2 : ℚ) ^ (-149 : ℤ) ≤ a → a < (2 : ℚ) ^ (128 : ℤ) →
        ∃ x, decodeValue .binary32 b = .fin s x ∧ x ≤ a ∧
          ∀ y, inValueSet .binary32 (.fin s y) = true → y ≤ a → y ≤ x) ∧
      ((2 : ℚ) ^ (128 : ℤ) ≤ a → b = #v[if s = .minus then 0xFF else 0x7F, 0x80, 0, 0])) ∧
  (encodeValue .binary32 (.fin .plus ((2 - 2 ^ (-52 : ℤ)) * 2 ^ (127 : ℤ)))).toList = [0x7F, 0x7F, 0xFF, 0xFF] ∧
  (encodeValue .binary32 (.fin .plus (3602879701896397 * 2 ^ (-55 : ℤ)))).toList = [0x3D, 0xCC, 0xCC, 0xCC]

/-- R103: on a format's own values every `floor` is of an integer, the clamp never fires, and decoding
gives the value back. -/
def Obligations.EncodeExactOnOwnValues : Prop :=
  ∀ (fmt : Fmt) (s : Sign) (m : ℚ) (e : ℤ), 1 / 2 ≤ m → m < 1 → inValueSet fmt (.fin s (m * 2 ^ e)) = true →
    (m * 2 ^ e < (2 : ℚ) ^ fmt.emin → ∃ n : ℕ, m * 2 ^ (e + fmt.normOffset + fmt.P - 1) = n) ∧
    ((2 : ℚ) ^ fmt.emin ≤ m * 2 ^ e → ∃ n : ℕ, m * 2 ^ fmt.P = n) ∧
    e + fmt.normOffset ≤ fmt.emaxFin ∧
    decodeValue fmt (encodeValue fmt (.fin s (m * 2 ^ e))) = .fin s (m * 2 ^ e)

/-- R105: the exponent field ENC64 computes never passes 2046, and no finite input is encoded with the
all-ones exponent; an input outside `V64` is refused. -/
def Obligations.Enc64ExponentRange : Prop :=
  (∀ (s : Sign) (m : ℚ) (e : ℤ), 1 / 2 ≤ m → m < 1 → inValueSet .binary64 (.fin s (m * 2 ^ e)) = true →
    m * 2 ^ e < (2 : ℚ) ^ (1024 : ℤ) ∧ e ≤ 1024 ∧ e + 1022 ≤ 2046 ∧
    (unpack .binary64 (word .binary64 (encodeValue .binary64 (.fin s (m * 2 ^ e))))).E ≤ 2046) ∧
  (∀ (s : Sign) (a : ℚ) (st : State), (2 : ℚ) ^ (1024 : ℤ) ≤ a →
    exec (.enc64 (.fin s a)) st = .refused (.operandNotAdmitted .enc64))

/-- R106: the closed forms of the fraction, for every positive magnitude. -/
def Obligations.FractionClosedForms : Prop :=
  ∀ (fmt : Fmt) (s : Sign) (a : ℚ), 0 < a →
    (subnormalFields fmt s a).F = ⌊a * 2 ^ (-fmt.subExp)⌋₊ ∧
    ⌊(scientificForm a).1 * 2 ^ ((scientificForm a).2 + fmt.normOffset + fmt.P - 1)⌋₊ = ⌊a * 2 ^ (-fmt.subExp)⌋₊ ∧
    ((⌊(scientificForm a).1 * 2 ^ fmt.P⌋₊ % 2 ^ fmt.T : ℕ) : ℤ) =
      ⌊a * 2 ^ ((fmt.T : ℤ) - ((scientificForm a).2 + fmt.normOffset) + fmt.bias)⌋ - 2 ^ fmt.T

/-- R157: a finite operand is refused exactly when it lies outside the admitted set of its encoder, for either
value of `WIDE_ENC32`. -/
def Obligations.EncodersRefuseNotAdmitted : Prop :=
  (∀ (s : Sign) (a : ℚ) (st : State),
    exec (.enc64 (.fin s a)) st = .refused (.operandNotAdmitted .enc64) ↔
      ¬ ∃ (M : ℕ) (q : ℤ), 1 ≤ M ∧ M < 2 ^ 53 ∧ -1074 ≤ q ∧ q ≤ 971 ∧ a = M * (2 : ℚ) ^ q) ∧
  (∀ (s : Sign) (a : ℚ) (st : State), st.wideEnc32 = false →
    (exec (.enc32 (.fin s a)) st = .refused (.operandNotAdmitted .enc32) ↔
      ¬ ∃ (M : ℕ) (q : ℤ), 1 ≤ M ∧ M < 2 ^ 24 ∧ -149 ≤ q ∧ q ≤ 104 ∧ a = M * (2 : ℚ) ^ q)) ∧
  (∀ (s : Sign) (a : ℚ) (st : State), st.wideEnc32 = true →
    (exec (.enc32 (.fin s a)) st = .refused (.operandNotAdmitted .enc32) ↔
      ¬ ∃ (M : ℕ) (q : ℤ), 1 ≤ M ∧ M < 2 ^ 53 ∧ -1074 ≤ q ∧ q ≤ 971 ∧ a = M * (2 : ℚ) ^ q))

/-- R27, R185: the only precondition of a transaction is that its operand is admitted. -/
def Obligations.AdmittedIsTheOnlyPrecondition : Prop :=
  ∀ (i : Instr) (st : State),
    (admitted st.wideEnc32 i = true → ∃ out, exec i st = .next (st.respond i out)) ∧
    (admitted st.wideEnc32 i = false → exec i st = .refused (.operandNotAdmitted i.op))

/-- R73, R68: the image of the encoders. -/
def Obligations.ImageOfEncoders : Prop :=
  (∀ v : NumVal, inValueSet .binary64 v = true →
    wordClass .binary64 (unpack .binary64 (word .binary64 (encodeValue .binary64 v))) = .nan →
    encodeValue .binary64 v = #v[if v.sign = .minus then 0xFF else 0x7F, 0xF8, 0, 0, 0, 0, 0, 0]) ∧
  (∀ v : NumVal, inValueSet .binary64 v = true →
    wordClass .binary32 (unpack .binary32 (word .binary32 (encodeValue .binary32 v))) = .nan →
    encodeValue .binary32 v = #v[if v.sign = .minus then 0xFF else 0x7F, 0xC0, 0, 0]) ∧
  (∀ (fmt : Fmt) (w : Word fmt), wordClass fmt (unpack fmt w) ≠ .nan →
    ∃! v : NumVal, inValueSet fmt v = true ∧ v.isNaN = false ∧ encodeValue fmt v = bytes fmt w) ∧
  (∃ v v' : NumVal, inValueSet .binary64 v = true ∧ inValueSet .binary32 v = false ∧
    inValueSet .binary32 v' = true ∧ encodeValue .binary32 v = encodeValue .binary32 v')

/-! ## The decoders -/

/-- R123 to R128: what DEC64 and DEC32 answer on every byte pattern, by the class of its word; the sign
is the sign bit in every class. -/
def Obligations.DecodersByClass : Prop :=
  (∀ (b : Bytes 8) (st : State) (w E F : ℕ) (s : Sign), (∑ k : Fin 8, b[k].toNat * 2 ^ (56 - 8 * k.val)) = w →
    w / 2 ^ 52 % 2 ^ 11 = E → w % 2 ^ 52 = F → (s = .minus ↔ b[0].getLsbD 7 = true) →
    exec (.dec64 b) st = .next (st.respond (.dec64 b) (.num
      (if E = 0 then
        if F = 0 then .zero s else .fin s (F * 2 ^ (-1074 : ℤ))
      else if E = 2047 then
        if F = 0 then .inf s else .nan s Config.canonPayload
      else .fin s ((2 ^ 52 + F) / 2 ^ 52 * 2 ^ ((E : ℤ) - 1023)))))) ∧
  (∀ (b : Bytes 4) (st : State) (w E F : ℕ) (s : Sign), (∑ k : Fin 4, b[k].toNat * 2 ^ (24 - 8 * k.val)) = w →
    w / 2 ^ 23 % 2 ^ 8 = E → w % 2 ^ 23 = F → (s = .minus ↔ b[0].getLsbD 7 = true) →
    exec (.dec32 b) st = .next (st.respond (.dec32 b) (.num
      (if E = 0 then
        if F = 0 then .zero s else .fin s (F * 2 ^ (-149 : ℤ))
      else if E = 255 then
        if F = 0 then .inf s else .nan s Config.canonPayload
      else .fin s ((2 ^ 23 + F) / 2 ^ 23 * 2 ^ ((E : ℤ) - 127))))))

/-- R131: what a decoder answers lies in its value set. -/
def Obligations.DecodersStayInValueSet : Prop :=
  ∀ (fmt : Fmt) (b : Bytes fmt.NB), inValueSet fmt (decodeValue fmt b) = true

/-- R133: decoding is increasing on the non-NaN words of sign 0 and decreasing on those of sign 1; the
two zeros are one number of two signs; the largest subnormal is below the smallest normal. -/
def Obligations.DecodersKeepOrder : Prop :=
  (∀ (fmt : Fmt) (w w' : Word fmt), (unpack fmt w).s = .plus → (unpack fmt w').s = .plus →
    wordClass fmt (unpack fmt w) ≠ .nan → wordClass fmt (unpack fmt w') ≠ .nan → w.toNat < w'.toNat →
    ∃ x y, number (decodeValue fmt (bytes fmt w)) = some x ∧ number (decodeValue fmt (bytes fmt w')) = some y ∧ x < y) ∧
  (∀ (fmt : Fmt) (w w' : Word fmt), (unpack fmt w).s = .minus → (unpack fmt w').s = .minus →
    wordClass fmt (unpack fmt w) ≠ .nan → wordClass fmt (unpack fmt w') ≠ .nan → w.toNat < w'.toNat →
    ∃ x y, number (decodeValue fmt (bytes fmt w)) = some x ∧ number (decodeValue fmt (bytes fmt w')) = some y ∧ y < x) ∧
  number (.zero .plus) = number (.zero .minus) ∧ NumVal.zero .plus ≠ .zero .minus ∧
  (∀ fmt : Fmt, ∃ a c : ℚ, decodeFields fmt ⟨.plus, 0, 2 ^ fmt.T - 1⟩ = .fin .plus a ∧
    decodeFields fmt ⟨.plus, 1, 0⟩ = .fin .plus c ∧ a < c)

/-- R134: every exponent field with fraction 0 and with fraction 1 decodes to a defined value, the one
the exponent sweep of 95_test_vectors.md section 2.6 lists. -/
def Obligations.ExponentSweep : Prop :=
  ∀ (fmt : Fmt) (E : ℕ), E ≤ fmt.emaxField →
    decodeValue fmt (bytes fmt (pack fmt ⟨.plus, E, 0⟩)) =
      (if E = 0 then .zero .plus else if E = fmt.emaxField then .inf .plus
        else .fin .plus (2 ^ ((E : ℤ) - fmt.bias))) ∧
    decodeValue fmt (bytes fmt (pack fmt ⟨.plus, E, 1⟩)) =
      (if E = 0 then .fin .plus (2 ^ fmt.subExp) else if E = fmt.emaxField then .nan .plus Config.canonPayload
        else .fin .plus ((2 ^ fmt.T + 1) * 2 ^ ((E : ℤ) - fmt.bias - fmt.T)))

/-! ## Round trips -/

/-- R132: the four round-trip laws, for both formats. -/
def Obligations.RoundTrips : Prop :=
  (∀ (fmt : Fmt) (b : Bytes fmt.NB), wordClass fmt (unpack fmt (word fmt b)) ≠ .nan →
    encodeValue fmt (decodeValue fmt b) = b) ∧
  (∀ (fmt : Fmt) (b : Bytes fmt.NB), wordClass fmt (unpack fmt (word fmt b)) = .nan →
    encodeValue fmt (decodeValue fmt b) =
      bytes fmt (pack fmt ⟨(unpack fmt (word fmt b)).s, 2 ^ fmt.W - 1, 2 ^ (fmt.T - 1)⟩)) ∧
  (∀ (fmt : Fmt) (v : NumVal), inValueSet fmt v = true → v.isNaN = false →
    decodeValue fmt (encodeValue fmt v) = v) ∧
  (∀ (fmt : Fmt) (s : Sign) (pl : Payload),
    decodeValue fmt (encodeValue fmt (.nan s pl)) = .nan s Config.canonPayload)

/-- R26, R103 and the cross-precision programs of 95_test_vectors.md: a binary32 value survives the trip
through binary64, on the machine: every request on the way is answered. -/
def Obligations.WideningIsExact : Prop :=
  ∀ (b : Bytes 4) (st : State),
    exec (.enc64 (decodeValue .binary32 b)) st =
      .next (st.respond (.enc64 (decodeValue .binary32 b)) (.bytes8 (encodeValue .binary64 (decodeValue .binary32 b)))) ∧
    decodeValue .binary64 (encodeValue .binary64 (decodeValue .binary32 b)) = decodeValue .binary32 b ∧
    (wordClass .binary32 (unpack .binary32 (word .binary32 b)) ≠ .nan →
      exec (.enc32 (decodeValue .binary64 (encodeValue .binary64 (decodeValue .binary32 b)))) st =
        .next (st.respond (.enc32 (decodeValue .binary32 b)) (.bytes4 b)))

/-- R9, R28, R29: whatever native representation a host has, decoding an encoded non-NaN native word
gives that word back, a NaN comes back as a quiet NaN of its sign, non-NaN bytes come back, and the machine
answers every native word. -/
def Obligations.NativeRoundTrips : Prop :=
  ∀ (H : Type) (fmt : Fmt) (r : NativeRepr H), r.Lawful fmt →
    (∀ h, (r.toVal h).isNaN = false → nativeDecode fmt r (nativeEncode fmt r h) = h) ∧
    (∀ h, (r.toVal h).isNaN = true →
      r.isQuiet (nativeDecode fmt r (nativeEncode fmt r h)) = true ∧
      (r.toVal (nativeDecode fmt r (nativeEncode fmt r h))).isNaN = true ∧
      (r.toVal (nativeDecode fmt r (nativeEncode fmt r h))).sign = (r.toVal h).sign) ∧
    (∀ b : Bytes fmt.NB, wordClass fmt (unpack fmt (word fmt b)) ≠ .nan →
      nativeEncode fmt r (nativeDecode fmt r b) = b) ∧
    (∀ (h : H) (st : State), match fmt with
      | .binary64 => exec (.enc64 (r.toVal h)) st =
          .next (st.respond (.enc64 (r.toVal h)) (.bytes8 (nativeEncode .binary64 r h)))
      | .binary32 => exec (.enc32 (r.toVal h)) st =
          .next (st.respond (.enc32 (r.toVal h)) (.bytes4 (nativeEncode .binary32 r h))))

/-! ## The machine -/

/-- R23, R24: a step takes one outstanding request; where it decodes to an instruction the step is `exec` of
that instruction, at the state with the request taken and its ticket active, and where it does not the step is
refused under the decoder's reason. The model's choices in it: that refusal's name (notes/assumptions/5.md), and that
`withFetchWord` drops what was outstanding and places one request of caller 0 under the next ticket number, past the boundary
(notes/assumptions/4.md). -/
def Obligations.StepRunsTheDecodedRequest : Prop :=
  (∀ st : State, st.requests ≠ [] → ∃ k, ∃ hk : k < st.requests.length,
    (∀ i, decode st.requests[k].raw = .ok i →
      step st = exec i { st with
        requests := st.requests.eraseIdx k
        active := st.requests[k].ticket
        turn := st.turn + 1 }) ∧
    (∀ why, decode st.requests[k].raw = .error why → step st = .refused (.malformedRequest why))) ∧
  (∀ (st : State) (tk : Ticket) (i : Instr), i.wellFormed = true → st.requests = [⟨tk, encode i⟩] →
    step st = exec i { st with requests := [], active := tk, turn := st.turn + 1 }) ∧
  (∀ (st : State) (nbits w : ℕ) (i : Instr), decodeTableWord nbits w = some i →
    step (st.withFetchWord nbits w) = exec i { st with
      requests := []
      active := ⟨st.issued, 0⟩
      issued := st.issued + 1
      turn := st.turn + 1 })

/-- R23: with no request outstanding the block takes no step, and a raw request that is no request is
refused under its reason: always where it is the only one, and where no outstanding one is a request. The two refusals are the model's names, notes/assumptions/5.md. -/
def Obligations.StepsThatAnswerNothing : Prop :=
  (∀ st : State, step st = .refused .noRequest ↔ st.requests = []) ∧
  (∀ (st : State) (q : Request) (why : DecodeError), st.requests = [q] → decode q.raw = .error why →
    step st = .refused (.malformedRequest why)) ∧
  (∀ st : State, st.requests ≠ [] → (∀ q ∈ st.requests, ∃ why, decode q.raw = .error why) →
    ∃ why, step st = .refused (.malformedRequest why)) ∧
  (∀ (st : State) (why : DecodeError), step st = .refused (.malformedRequest why) →
    ∃ q ∈ st.requests, decode q.raw = .error why)

/-- R21, R24, R25, R30, R31: the frame of the four operations. Each appends its one response, `ENCODE` or `DECODE`
of its operand (R101, R102, R129, R130), with the active ticket, and changes nothing else: there is no flag, register or
memory to change. -/
def Obligations.FrameOfOperations : Prop :=
  ∀ (i : Instr) (st t : State), exec i st = .next t →
    t.requests = st.requests ∧ t.active = st.active ∧ t.issued = st.issued ∧ t.turn = st.turn ∧
    t.wideEnc32 = st.wideEnc32 ∧
    t.responses = st.responses ++ [⟨st.active, i,
      match i with
      | .enc64 v => .bytes8 (encodeValue .binary64 v)
      | .dec64 b => .num (decodeValue .binary64 b)
      | .enc32 v => .bytes4 (encodeValue .binary32 v)
      | .dec32 b => .num (decodeValue .binary32 b)⟩]

/-- R23, R165: the frame of a step. One request leaves, its one response with its own ticket is added, and
the parameter and what was answered before stay. Tickets and the list of responses are the model's choice of form,
notes/assumptions/14.md. -/
def Obligations.FrameOfStep : Prop :=
  ∀ st t : State, step st = .next t → ∃ k, ∃ hk : k < st.requests.length, ∃ i out,
    decode st.requests[k].raw = .ok i ∧ answer st.wideEnc32 i = some out ∧
    t.requests = st.requests.eraseIdx k ∧
    t.responses = st.responses ++ [⟨st.requests[k].ticket, i, out⟩] ∧
    t.active = st.requests[k].ticket ∧ t.turn = st.turn + 1 ∧
    t.issued = st.issued ∧ t.wideEnc32 = st.wideEnc32

/-- R33: two transactions with equal requests get equal responses, whatever the two machines have done
before and whatever else is outstanding, and even where `WIDE_ENC32` differs as long as both answer (R9). -/
def Obligations.ResponseDependsOnRequestAlone : Prop :=
  (∀ (i : Instr) (st st' : State), st.wideEnc32 = st'.wideEnc32 →
    (∃ out, exec i st = .next (st.respond i out) ∧ exec i st' = .next (st'.respond i out)) ∨
    (∃ why, exec i st = .refused why ∧ exec i st' = .refused why)) ∧
  (∀ (i : Instr) (st st' t t' : State), exec i st = .next t → exec i st' = .next t' →
    ∃ out, t = st.respond i out ∧ t' = st'.respond i out)

/-- R9, R34, R181, R184: at reset nothing is outstanding and nothing was answered, `WIDE_ENC32` is its
default, and no step is taken. That an empty interface stands for a block with nothing to reset, and that
a step with nothing to answer is refused, is the model's choice, notes/assumptions/3.md and 5.md. -/
def Obligations.ResetState : Prop :=
  State.reset.requests = [] ∧ State.reset.responses = [] ∧ State.reset.wideEnc32 = false ∧
  step State.reset = .refused .noRequest

/-- The invariant holds right after reset, and nothing outstanding is a request R157 refuses. Tickets and the empty interface are the model's choice,
notes/assumptions/14.md and 3.md. -/
def Obligations.ResetMeetsInvariant : Prop := State.reset.Inv ∧ State.reset.Safe

/-- R24, R33, R50, R165: every step keeps the invariant: every response given is the one its request
gets alone, and no two transactions share a ticket; and a state that holds no request R157 refuses stays so. Tickets
are the model's choice, notes/assumptions/14.md. -/
def Obligations.StepKeepsInvariant : Prop :=
  ∀ st t : State, step st = .next t → (st.Inv → t.Inv) ∧ (st.Safe → t.Safe)

/-- R23, R157, R165, R183: what the outside does keeps both too: a caller issuing a request, which waits exactly
when it decodes to an admitted instruction, and a platform reset. That the boundary is the issue is the model's
deduction (notes/assumptions/17.md), and the form of both is its choice: what does not decode is refused there too (5.md), a
new request comes last and its ticket is numbered `issued` (14.md), and a reset changes `requests` alone (10.md). -/
def Obligations.OutsideKeepsInvariant : Prop :=
  (∀ (st : State) (caller : ℕ) (raw : RawRequest),
    (∃ t, st.issue caller raw = .next t) ↔ ∃ i, decode raw = .ok i ∧ admitted st.wideEnc32 i = true) ∧
  (∀ (st t : State) (caller : ℕ) (raw : RawRequest), st.issue caller raw = .next t →
    (st.Inv → t.Inv ∧ ∀ q ∈ st.requests, q.ticket.id ≠ st.issued) ∧ (st.Safe → t.Safe) ∧
    t.requests = st.requests ++ [⟨⟨st.issued, caller⟩, raw⟩] ∧ t.responses = st.responses ∧
    t.active = st.active ∧ t.issued = st.issued + 1 ∧ t.turn = st.turn ∧ t.wideEnc32 = st.wideEnc32) ∧
  (∀ st : State, (st.Inv → st.platformReset.Inv) ∧ st.platformReset.Safe ∧
    st.platformReset.requests = [] ∧ st.platformReset.responses = st.responses ∧
    st.platformReset.active = st.active ∧ st.platformReset.issued = st.issued ∧
    st.platformReset.turn = st.turn ∧ st.platformReset.wideEnc32 = st.wideEnc32)

/-- R181, R183, R184: a platform reset abandons what is outstanding with no response, and a request
issued after it gets what it would have got before it. That responses given stay and that a step with nothing to
answer is refused is the model's choice, notes/assumptions/10.md and 5.md. -/
def Obligations.PlatformResetAbandons : Prop :=
  ∀ (st : State) (i : Instr),
    st.platformReset.requests = [] ∧ st.platformReset.responses = st.responses ∧
    st.platformReset.wideEnc32 = st.wideEnc32 ∧ step st.platformReset = .refused .noRequest ∧
    ((∃ out, exec i st = .next (st.respond i out) ∧
        exec i st.platformReset = .next (st.platformReset.respond i out)) ∨
      ∃ why, exec i st = .refused why ∧ exec i st.platformReset = .refused why)

/-- A step from a safe state with a request outstanding answers it and leaves a safe state. -/
def Obligations.SafeStatesProgress : Prop :=
  ∀ st : State, st.Safe → st.requests ≠ [] → ∃ t, step st = .next t ∧ t.Safe ∧
    t.requests.length + 1 = st.requests.length

/-- R50, R165, R189: from a safe state, as many steps as requests are outstanding answer every one of
them, each with the response it gets alone, whatever the completion order is; the responses come
in some order, each with the ticket of its request (the model's pairing, notes/assumptions/14.md). -/
def Obligations.EveryRequestIsAnswered : Prop :=
  ∀ st : State, st.Safe → ∃ (t : State) (replies : List Response),
    core.run st.requests.length st = .next t ∧ t.requests = [] ∧
    t.responses = st.responses ++ replies ∧
    (replies.map some).Perm (st.requests.map (Request.reply st.wideEnc32))

/-- R50: reordering what is outstanding changes no response: the two runs to the end answer the same
transactions with the same responses, paired by tickets (the model's choice, notes/assumptions/14.md). -/
def Obligations.OrderOfRequestsDoesNotMatter : Prop :=
  ∀ st st' : State, st.Safe → st.requests.Perm st'.requests → st.responses = st'.responses →
    st.wideEnc32 = st'.wideEnc32 → ∃ t t' : State,
      core.run st.requests.length st = .next t ∧ core.run st'.requests.length st' = .next t' ∧
      t.responses.Perm t'.responses

/-! ## The caller's side -/

/-- R24, R75: a whole transaction is what a step does for a request issued to an idle block, with the
same refusal where the boundary refuses it, and a line
of a program performs one and binds its variable to the response. The form of programs is the model's choice,
notes/assumptions/13.md, and so is what the boundary refuses beside R157, and where, 5.md and 17.md. -/
def Obligations.LinesAreTransactions : Prop :=
  (∀ (st t : State) (caller : ℕ) (raw : RawRequest), st.requests = [] → st.issue caller raw = .next t →
    step t = ({ st with turn := st.turn + 1 } : State).transact caller raw) ∧
  (∀ (st : State) (caller : ℕ) (raw : RawRequest) (why : Refusal), st.issue caller raw = .refused why →
    st.transact caller raw = .refused why) ∧
  (∀ (c : Caller) (caller : ℕ) (l : Line) (x : Operand) (i : Instr) (out : Result),
    l.arg.operand c.vars = .ok x → decode ⟨l.op.bits, x⟩ = .ok i → answer c.machine.wideEnc32 i = some out →
    ∃ t, runLine caller l c = .next ⟨(l.dest, out) :: c.vars, t⟩ ∧
      t.responses = c.machine.responses ++ [⟨⟨c.machine.issued, caller⟩, i, out⟩])

/-- R42: byte `k` of a buffer in a caller's memory is at the buffer's address plus `k`, and a memory holds
at most one byte sequence of a width at an address. -/
def Obligations.CallerBuffers : Prop :=
  (∀ (n addr : ℕ) (b : Bytes n) (rest : List Host.Cell), holdsBuffer (bufferCells addr b ++ rest) addr b = true) ∧
  (∀ (n addr : ℕ) (mem : List Host.Cell) (b : Bytes n), holdsBuffer mem addr b = true ↔
    ∀ k : Fin n, mem.lookup (addr + k.val) = some b[k])

/-! ## Fair runs -/

/-- R165, R183, R189: in every weakly fair run among callers who may go on issuing, a request outstanding at some
moment stays outstanding until a step answers it, with the response it gets alone, or a platform reset abandons it. The
form of the fair order is the model's choice, notes/assumptions/6.md, and so is the ticket, 14.md. -/
def Obligations.EveryRequestIsEventuallyAnswered : Prop :=
  ∀ (state : ℕ → State) (event : ℕ → Event), IsFairRun state event →
    ∀ (n : ℕ), ∀ q ∈ (state n).requests, ∃ m, n ≤ m ∧
      (∀ j, n ≤ j → j ≤ m → q ∈ (state j).requests) ∧
      (event m = .platformReset ∨
        (event m = .step ∧ ∃ r, q.reply (state n).wideEnc32 = some r ∧
          (state (m + 1)).responses = (state m).responses ++ [r]))

/-! ## Refused runs -/

/-- R157: an encoder operand outside the admitted set is refused as its request is issued, in every state; a run in which
a caller issues one is refused, whatever else happens in it, a platform reset included; and a run that is not refused comes to
no state that holds one, if it began in none. R157 says that the model refuses at its boundary; that the boundary is the
issue is the model's deduction, notes/assumptions/17.md. -/
def Obligations.NotAdmittedRequestsRefuseTheRun : Prop :=
  (∀ (st : State) (caller : ℕ) (v : NumVal), v.wellFormed = true → admittedEnc64 v = false →
    st.issue caller ⟨0b00, .num v⟩ = .refused (.operandNotAdmitted .enc64)) ∧
  (∀ (st : State) (caller : ℕ) (v : NumVal), v.wellFormed = true → admittedEnc32 st.wideEnc32 v = false →
    st.issue caller ⟨0b10, .num v⟩ = .refused (.operandNotAdmitted .enc32)) ∧
  (∀ (st : State) (events : List Event) (caller : ℕ) (v : NumVal),
    (Event.issue caller ⟨0b00, .num v⟩ ∈ events ∧ admittedEnc64 v = false) ∨
      (Event.issue caller ⟨0b10, .num v⟩ ∈ events ∧ admittedEnc32 st.wideEnc32 v = false) →
    ∃ why, st.run events = .refused why) ∧
  (∀ (st t : State) (events : List Event), st.run events = .next t → st.Safe → t.Safe)
end

