-- ==== Sys2Proof/Laws/Arithmetic.lean ====
section
/-!
SUPPORT. The exact arithmetic of Machine/Operands.lean in the library's own terms: `pow2` is the
power of two, `truncate` the floor, and the exponent of `normalize` brackets its argument.
-/

namespace Sys2Proof.Machine

theorem pow2_eq_zpow (k : Int) : pow2 k = (2 : ℚ) ^ k := by
  cases k with
  | ofNat n => simp [pow2]
  | negSucc n =>
    rw [pow2, Rat.mkRat_eq_div, zpow_negSucc]
    simp

theorem pow2_pos (k : Int) : 0 < pow2 k := by
  rw [pow2_eq_zpow]; positivity

theorem truncate_eq_floor (x : ℚ) : truncate x = ⌊x⌋₊ := rfl

/-- The exponent of `normalize` brackets its argument between two powers of two. -/
theorem normExponent_bracket {a : ℚ} (h : 0 < a) :
    (2 : ℚ) ^ (normExponent a - 1) ≤ a ∧ a < (2 : ℚ) ^ normExponent a := by
  have hnum : 0 < a.num := Rat.num_pos.mpr h
  have hn0 : a.num.toNat ≠ 0 := by omega
  have hd0 : a.den ≠ 0 := a.den_nz
  set p := a.num.toNat.log2 with hp
  set q := a.den.log2 with hq
  have n1 : 2 ^ p ≤ a.num.toNat := Nat.log2_self_le hn0
  have n2 : a.num.toNat < 2 ^ (p + 1) := Nat.lt_log2_self
  have d1 : 2 ^ q ≤ a.den := Nat.log2_self_le hd0
  have d2 : a.den < 2 ^ (q + 1) := Nat.lt_log2_self
  have ha : a = (a.num.toNat : ℚ) / (a.den : ℚ) := by
    conv_lhs => rw [← Rat.num_div_den a]
    congr 1
    exact_mod_cast (Int.toNat_of_nonneg hnum.le).symm
  have dpos : (0 : ℚ) < a.den := by exact_mod_cast Nat.pos_of_ne_zero hd0
  have N1 : (2 : ℚ) ^ p ≤ a.num.toNat := by exact_mod_cast n1
  have N2 : (a.num.toNat : ℚ) < 2 ^ (p + 1) := by exact_mod_cast n2
  have D1 : (2 : ℚ) ^ q ≤ a.den := by exact_mod_cast d1
  have D2 : (a.den : ℚ) < 2 ^ (q + 1) := by exact_mod_cast d2
  have lo : (2 : ℚ) ^ ((p : ℤ) - q - 1) ≤ a := by
    conv_rhs => rw [ha]
    rw [le_div_iff₀ dpos]
    calc (2 : ℚ) ^ ((p : ℤ) - q - 1) * a.den ≤ (2 : ℚ) ^ ((p : ℤ) - q - 1) * 2 ^ (q + 1) := by gcongr
      _ = 2 ^ p := by
        rw [← zpow_natCast, ← zpow_natCast, ← zpow_add₀ (by norm_num)]
        congr 1
        push_cast
        ring
      _ ≤ _ := N1
  have hi : a < (2 : ℚ) ^ ((p : ℤ) - q + 1) := by
    conv_lhs => rw [ha]
    rw [div_lt_iff₀ dpos]
    calc (a.num.toNat : ℚ) < 2 ^ (p + 1) := N2
      _ = (2 : ℚ) ^ ((p : ℤ) - q + 1) * 2 ^ q := by
        rw [← zpow_natCast, ← zpow_natCast, ← zpow_add₀ (by norm_num)]
        congr 1
        push_cast
        ring
      _ ≤ _ := by gcongr
  unfold normExponent
  simp only [pow2_eq_zpow, ← hp, ← hq]
  split
  · exact ⟨lo, ‹_›⟩
  · rename_i hge
    refine ⟨?_, hi⟩
    simpa using hge

/-- Only one exponent brackets a number. -/
theorem exponent_unique {a : ℚ} {e e' : ℤ} (h₁ : (2 : ℚ) ^ (e - 1) ≤ a) (h₂ : a < 2 ^ e)
    (h₃ : (2 : ℚ) ^ (e' - 1) ≤ a) (h₄ : a < 2 ^ e') : e = e' := by
  have x := (zpow_lt_zpow_iff_right₀ (by norm_num : (1 : ℚ) < 2)).mp (lt_of_le_of_lt h₁ h₄)
  have y := (zpow_lt_zpow_iff_right₀ (by norm_num : (1 : ℚ) < 2)).mp (lt_of_le_of_lt h₃ h₂)
  omega

/-- A number in scientific form lies between the two powers its exponent names. -/
theorem scientific_bracket {m : ℚ} (e : ℤ) (h₁ : 1 / 2 ≤ m) (h₂ : m < 1) :
    (2 : ℚ) ^ (e - 1) ≤ m * 2 ^ e ∧ m * 2 ^ e < (2 : ℚ) ^ e := by
  have hp : (0 : ℚ) < 2 ^ e := by positivity
  refine ⟨?_, by nlinarith⟩
  rw [zpow_sub_one₀ (by norm_num)]
  nlinarith

theorem normExponent_eq {a : ℚ} {e : ℤ} (h₁ : (2 : ℚ) ^ (e - 1) ≤ a) (h₂ : a < 2 ^ e) :
    normExponent a = e := by
  obtain ⟨x, y⟩ := normExponent_bracket (lt_of_lt_of_le (by positivity) h₁)
  exact exponent_unique x y h₁ h₂

end Sys2Proof.Machine
end

