-- ==== Sys2Proof/Laws/Format.lean ====
section
/-!
SUPPORT. The format constants in relation to each other, fields as quotients and remainders of the
word, and the base-256 sums behind the byte order.
-/

namespace Sys2Proof.Machine

/-! ### Constants -/

theorem N_eq_eight_mul_NB (fmt : Fmt) : fmt.N = 8 * fmt.NB := by cases fmt <;> rfl

theorem emaxField_pos (fmt : Fmt) : 0 < fmt.emaxField := by cases fmt <;> decide

theorem emaxField_eq_succ_emaxFin (fmt : Fmt) : fmt.emaxField = fmt.emaxFin + 1 := by cases fmt <;> rfl

theorem emaxField_eq_two_bias (fmt : Fmt) : fmt.emaxField = 2 * fmt.bias + 1 := by cases fmt <;> rfl

theorem bias_eq_succ_normOffset (fmt : Fmt) : fmt.bias = fmt.normOffset + 1 := by cases fmt <;> rfl

theorem emin_eq_subExp_add (fmt : Fmt) : fmt.emin = fmt.subExp + fmt.T := by
  simp [Fmt.emin, Fmt.subExp]

theorem qnan_fraction_lt (fmt : Fmt) : 2 ^ fmt.qnanBit < 2 ^ fmt.T :=
  Nat.pow_lt_pow_right (by norm_num) (by cases fmt <;> decide)

/-! ### Signs -/

@[simp] theorem ofBit_bit (s : Sign) : Sign.ofBit s.bit = s := by cases s <;> rfl

theorem bit_le_one (s : Sign) : s.bit ≤ 1 := by cases s <;> decide

theorem bit_ofBit {n : ℕ} (h : n < 2) : (Sign.ofBit n).bit = n := by
  obtain rfl | rfl : n = 0 ∨ n = 1 := by omega
  all_goals rfl

/-! ### Fields -/

/-- The fields of a word as quotients and remainders of the number it is. -/
theorem unpack_eq (fmt : Fmt) (w : Word fmt) : unpack fmt w =
    ⟨Sign.ofBit (w.toNat / 2 ^ (fmt.N - 1) % 2), w.toNat / 2 ^ fmt.T % 2 ^ fmt.W, w.toNat % 2 ^ fmt.T⟩ := by
  cases fmt <;> simp [unpack, slice, Fmt.N, Fmt.T, Fmt.W]

/-- The fields of a word are within their widths. -/
theorem unpack_ranges (fmt : Fmt) (w : Word fmt) :
    (unpack fmt w).E ≤ fmt.emaxField ∧ (unpack fmt w).F < 2 ^ fmt.T := by
  rw [unpack_eq]
  cases fmt <;> simp only [Fmt.T, Fmt.emaxField, Fmt.W] <;> omega

/-! ### Big-endian sums -/

/-- The number `n` base-256 digits stand for, the first the most significant. -/
def bigEndian (f : ℕ → ℕ) (n : ℕ) : ℕ := ∑ k ∈ Finset.range n, f k * 256 ^ (n - 1 - k)

theorem bigEndian_succ (f : ℕ → ℕ) (n : ℕ) : bigEndian f (n + 1) = 256 * bigEndian f n + f n := by
  unfold bigEndian
  rw [Finset.sum_range_succ, Finset.mul_sum]
  simp only [Nat.add_sub_cancel, Nat.sub_self, pow_zero, mul_one, Nat.add_right_cancel_iff]
  refine Finset.sum_congr rfl fun k hk => ?_
  have := Finset.mem_range.mp hk
  rw [show n - k = (n - 1 - k) + 1 by omega, pow_succ]
  ring

theorem bigEndian_lt {f : ℕ → ℕ} (hf : ∀ k, f k < 256) (n : ℕ) : bigEndian f n < 256 ^ n := by
  induction n with
  | zero => simp [bigEndian]
  | succ n ih =>
    have := hf n
    rw [bigEndian_succ, pow_succ]
    omega

/-- A digit of a big-endian sum is the one it was built from. -/
theorem bigEndian_digit {f : ℕ → ℕ} (hf : ∀ k, f k < 256) {n k : ℕ} (hk : k < n) :
    bigEndian f n / 256 ^ (n - 1 - k) % 256 = f k := by
  induction n with
  | zero => omega
  | succ n ih =>
    have := hf n
    rw [bigEndian_succ]
    by_cases h : k = n
    · have := hf k
      subst h
      simp
      omega
    · rw [show n + 1 - 1 - k = (n - 1 - k) + 1 by omega, pow_succ', ← Nat.div_div_eq_div_mul,
        show (256 * bigEndian f n + f n) / 256 = bigEndian f n by omega]
      exact ih (by omega)

/-- The place of byte `k` in a word, as a power of 256. -/
theorem two_pow_place (fmt : Fmt) (k : ℕ) : 2 ^ (fmt.N - 8 - 8 * k) = 256 ^ (fmt.NB - 1 - k) := by
  rw [N_eq_eight_mul_NB, show 8 * fmt.NB - 8 - 8 * k = 8 * (fmt.NB - 1 - k) by omega, pow_mul]
  rfl

end Sys2Proof.Machine
end

