-- ==== Sys2Proof/Laws/Codec.lean ====
section
/-!
SUPPORT. What each computation of the codec answers, said once over the library's powers and floors.
-/

namespace Sys2Proof.Machine

/-- The subnormal computation, once the scientific form is known. -/
theorem subnormalFields_eq (fmt : Fmt) (s : Sign) {a m : ℚ} {e : ℤ} (h : scientificForm a = (m, e)) :
    subnormalFields fmt s a = ⟨s, 0, ⌊m * 2 ^ (e + fmt.normOffset + fmt.P - 1)⌋₊⟩ := by
  simp only [subnormalFields, h, pow2_eq_zpow, truncate_eq_floor]

/-- The normal computation, once the scientific form is known. -/
theorem normalFields_eq (fmt : Fmt) (s : Sign) {a m : ℚ} {e : ℤ} (h : scientificForm a = (m, e)) :
    normalFields fmt s a =
      clampFields fmt ⟨s, (e + fmt.normOffset).toNat, ⌊m * 2 ^ fmt.P⌋₊ % 2 ^ fmt.T⟩ := by
  simp only [normalFields, h, pow2_eq_zpow, truncate_eq_floor, zpow_natCast]

/-- A field the clamp leaves alone. -/
theorem clampFields_of_le (fmt : Fmt) {f : Fields} (h : f.E ≤ fmt.emaxFin) : clampFields fmt f = f := by
  cases fmt
  · rfl
  · simp [clampFields, Nat.not_lt.mpr h]

/-- A field the binary32 clamp turns into an infinity. -/
theorem clampFields_of_lt {f : Fields} (h : Fmt.emaxFin .binary32 < f.E) :
    clampFields .binary32 f = ⟨f.s, Fmt.emaxField .binary32, 0⟩ := by
  simp [clampFields, h]

/-- The clamp touches neither the sign nor, below the all-ones exponent, anything else. -/
@[simp] theorem clampFields_s (fmt : Fmt) (f : Fields) : (clampFields fmt f).s = f.s := by
  cases fmt
  · rfl
  · simp only [clampFields]
    split <;> rfl

section encodeFields
variable (fmt : Fmt) (s : Sign)

@[simp] theorem encodeFields_zero : encodeFields fmt (.zero s) = ⟨s, 0, 0⟩ := rfl
@[simp] theorem encodeFields_inf : encodeFields fmt (.inf s) = ⟨s, fmt.emaxField, 0⟩ := rfl
@[simp] theorem encodeFields_nan (pl : Payload) :
    encodeFields fmt (.nan s pl) = ⟨s, fmt.emaxField, 2 ^ fmt.qnanBit⟩ := rfl

theorem encodeFields_of_lt {a : ℚ} (h : a < 2 ^ fmt.emin) :
    encodeFields fmt (.fin s a) = subnormalFields fmt s a := by
  simp [encodeFields, magnitudeClass, pow2_eq_zpow, h]

theorem encodeFields_of_le {a : ℚ} (h : 2 ^ fmt.emin ≤ a) :
    encodeFields fmt (.fin s a) = normalFields fmt s a := by
  simp [encodeFields, magnitudeClass, pow2_eq_zpow, not_lt.mpr h]

end encodeFields

/-- The value of fields, all five classes at once. -/
theorem decodeFields_eq (fmt : Fmt) (f : Fields) : decodeFields fmt f =
    if f.E = 0 then
      if f.F = 0 then .zero f.s else .fin f.s (f.F * 2 ^ fmt.subExp)
    else if f.E = fmt.emaxField then
      if f.F = 0 then .inf f.s else .nan f.s Config.canonPayload
    else .fin f.s ((2 ^ fmt.T + f.F) / 2 ^ fmt.T * 2 ^ ((f.E : ℤ) - fmt.bias)) := by
  by_cases hE : f.E = 0 <;> by_cases hF : f.F = 0 <;> by_cases hm : f.E = fmt.emaxField <;>
    simp [decodeFields, wordClass, subnormalMagnitude, normalMagnitude, pow2_eq_zpow, hE, hF, hm,
      (emaxField_pos fmt).ne']

/-- The sign of a decoded value is the sign field, in every class. -/
@[simp] theorem decodeFields_sign (fmt : Fmt) (f : Fields) : (decodeFields fmt f).sign = f.s := by
  unfold decodeFields
  split <;> rfl

/-- A decoded value is a NaN only as the block produces one. -/
theorem decodeFields_isNaN {fmt : Fmt} {f : Fields} (h : (decodeFields fmt f).isNaN = true) :
    wordClass fmt f = .nan ∧ decodeFields fmt f = .nan f.s Config.canonPayload := by
  unfold decodeFields at h ⊢
  split at h
  all_goals try cases h
  exact ⟨‹_›, rfl⟩

end Sys2Proof.Machine
end

