-- ==== Sys2Proof/Laws/State.lean ====
section
/-!
SUPPORT. One lemma per field per update of the state, so that no proof unfolds a record update.
-/

namespace Sys2Proof.Machine

section respond
variable (i : Instr) (out : Result) (s : State)

@[simp] theorem respond_requests : (s.respond i out).requests = s.requests := rfl
@[simp] theorem respond_active : (s.respond i out).active = s.active := rfl
@[simp] theorem respond_responses :
    (s.respond i out).responses = s.responses ++ [⟨s.active, i, out⟩] := rfl
@[simp] theorem respond_issued : (s.respond i out).issued = s.issued := rfl
@[simp] theorem respond_turn : (s.respond i out).turn = s.turn := rfl
@[simp] theorem respond_wideEnc32 : (s.respond i out).wideEnc32 = s.wideEnc32 := rfl

end respond

section enqueue
variable (caller : Nat) (raw : RawRequest) (s : State)

@[simp] theorem enqueue_requests :
    (s.enqueue caller raw).requests = s.requests ++ [⟨⟨s.issued, caller⟩, raw⟩] := rfl
@[simp] theorem enqueue_active : (s.enqueue caller raw).active = s.active := rfl
@[simp] theorem enqueue_responses : (s.enqueue caller raw).responses = s.responses := rfl
@[simp] theorem enqueue_issued : (s.enqueue caller raw).issued = s.issued + 1 := rfl
@[simp] theorem enqueue_turn : (s.enqueue caller raw).turn = s.turn := rfl
@[simp] theorem enqueue_wideEnc32 : (s.enqueue caller raw).wideEnc32 = s.wideEnc32 := rfl

end enqueue

section platformReset
variable (s : State)

@[simp] theorem platformReset_requests : s.platformReset.requests = [] := rfl
@[simp] theorem platformReset_active : s.platformReset.active = s.active := rfl
@[simp] theorem platformReset_responses : s.platformReset.responses = s.responses := rfl
@[simp] theorem platformReset_issued : s.platformReset.issued = s.issued := rfl
@[simp] theorem platformReset_turn : s.platformReset.turn = s.turn := rfl
@[simp] theorem platformReset_wideEnc32 : s.platformReset.wideEnc32 = s.wideEnc32 := rfl

end platformReset

section reset

@[simp] theorem reset_requests : State.reset.requests = [] := rfl
@[simp] theorem reset_responses : State.reset.responses = [] := rfl
@[simp] theorem reset_issued : State.reset.issued = 0 := rfl
@[simp] theorem reset_turn : State.reset.turn = 0 := rfl
@[simp] theorem reset_wideEnc32 : State.reset.wideEnc32 = Config.wideEnc32Default := rfl

end reset

end Sys2Proof.Machine
end

