-- ==== Sys2Proof/Laws/Interface.lean ====
section
/-!
SUPPORT. What the shared operations of the interface can do, each said once: taking a request,
answering one, and what a whole step does.
-/

namespace Sys2Proof.Machine

/-! ### Taking one of several -/

theorem takeAt_eq_some {α : Type} {l : List α} {k : Nat} (h : k < l.length) :
    takeAt l k = some (l[k], l.eraseIdx k) := by
  induction l generalizing k with
  | nil => simp at h
  | cons x xs ih =>
    cases k with
    | zero => rfl
    | succ k => simp [takeAt, ih (Nat.lt_of_succ_lt_succ h)]

/-- A choice from a nonempty list picks one index and leaves the others in their order. -/
theorem choose_eq_some {α : Type} {l : List α} (n : Nat) (h : l ≠ []) :
    ∃ k, ∃ hk : k < l.length, choose l n = some (l[k], l.eraseIdx k) := by
  match l, h with
  | [x], _ => exact ⟨0, by simp, rfl⟩
  | x :: y :: xs, _ =>
    have hk : n % (xs.length + 2) < (x :: y :: xs).length := Nat.mod_lt _ (by simp)
    exact ⟨_, hk, takeAt_eq_some hk⟩

/-- The choice 0 picks the first. -/
@[simp] theorem choose_cons_zero {α : Type} (x : α) (xs : List α) : choose (x :: xs) 0 = some (x, xs) := by
  cases xs with
  | nil => rfl
  | cons y ys => simp [choose, takeAt]

/-- Whatever the turn, there is one to come at which the oldest request is taken. -/
theorem exists_turnChoice_eq_zero (turn : Nat) : ∃ later, turn ≤ later ∧ turnChoice later = 0 := by
  refine ⟨turn + Config.oldestWithin turn, Nat.le_add_right _ _, if_pos ?_⟩
  exact List.any_eq_true.mpr ⟨turn, List.mem_range.mpr (by omega), by simp⟩

@[simp] theorem choose_nil {α : Type} (n : Nat) : choose ([] : List α) n = none := rfl

@[simp] theorem choose_single {α : Type} (x : α) (n : Nat) : choose [x] n = some (x, []) := rfl

/-- Taking a request: with one outstanding, some request is taken, its ticket becomes the active one,
and nothing else but the turn changes. -/
theorem accept_eq_some {s : State} (h : s.requests ≠ []) :
    ∃ k, ∃ hk : k < s.requests.length, s.accept = some (s.requests[k],
      { s with requests := s.requests.eraseIdx k, active := s.requests[k].ticket, turn := s.turn + 1 }) := by
  obtain ⟨k, hk, e⟩ := choose_eq_some (turnChoice s.turn) h
  exact ⟨k, hk, by simp [State.accept, e]⟩

/-- At a turn of the oldest, the oldest request is the one taken. -/
theorem accept_oldest {s : State} {q : Request} {qs : List Request} (h : s.requests = q :: qs)
    (ht : turnChoice s.turn = 0) :
    s.accept = some (q, { s with requests := qs, active := q.ticket, turn := s.turn + 1 }) := by
  simp [State.accept, h, ht]

/-- No request is taken exactly when none is outstanding. -/
theorem accept_eq_none {s : State} : s.accept = none ↔ s.requests = [] := by
  constructor
  · intro h
    by_contra hne
    obtain ⟨k, hk, e⟩ := accept_eq_some hne
    simp [e] at h
  · intro h
    simp [State.accept, h]

/-! ### Answering -/

/-- The result an operation computes, as a function of the request alone. -/
def resultOf : Instr → Result
  | .enc64 v => .bytes8 (encodeValue .binary64 v)
  | .dec64 b => .num (decodeValue .binary64 b)
  | .enc32 v => .bytes4 (encodeValue .binary32 v)
  | .dec32 b => .num (decodeValue .binary32 b)

/-- Every operation in one equation: an admitted request gets its result as its one response, and
any other is refused under the operation's name. -/
theorem exec_eq (i : Instr) (s : State) :
    exec i s = if admitted s.wideEnc32 i then .next (s.respond i (resultOf i))
      else .refused (.operandNotAdmitted i.op) := by
  cases i <;> rfl

theorem exec_next_iff {i : Instr} {s t : State} :
    exec i s = .next t ↔ admitted s.wideEnc32 i = true ∧ t = s.respond i (resultOf i) := by
  rw [exec_eq]
  by_cases h : admitted s.wideEnc32 i = true
  · simpa [h] using eq_comm
  · simp [h]

theorem answer_eq (wide : Bool) (i : Instr) :
    answer wide i = if admitted wide i then some (resultOf i) else none := by
  rw [answer, exec_eq]
  by_cases h : admitted wide i = true <;> simp [h]

theorem reply_of_defined {wide : Bool} {q : Request} (h : q.isDefined wide = true) :
    ∃ i, decode q.raw = .ok i ∧ admitted wide i = true ∧
      q.reply wide = some ⟨q.ticket, i, resultOf i⟩ := by
  unfold Request.isDefined at h
  split at h
  · rename_i i hd
    exact ⟨i, hd, h, by simp [Request.reply, hd, answer_eq, h]⟩
  · cases h

/-! ### The boundary -/

/-- What passes the boundary: what decodes to an admitted instruction. -/
theorem boundary_eq_ok {wide : Bool} {raw : RawRequest} {i : Instr} :
    boundary wide raw = .ok i ↔ decode raw = .ok i ∧ admitted wide i = true := by
  unfold boundary
  split
  · rename_i j hd
    by_cases ha : admitted wide j = true <;> simp only [ha, hd] <;> grind
  · simp [*]

/-- Issuing answers exactly what passes the boundary, and then the request waits. -/
theorem issue_next_iff {caller : Nat} {raw : RawRequest} {s t : State} :
    s.issue caller raw = .next t ↔
      (∃ i, decode raw = .ok i ∧ admitted s.wideEnc32 i = true) ∧ t = s.enqueue caller raw := by
  unfold State.issue
  split
  · rename_i i hb
    have := boundary_eq_ok.mp hb
    exact ⟨fun h => ⟨⟨i, this⟩, (Host.Outcome.next.inj h).symm⟩, fun h => by rw [h.2]⟩
  · rename_i why hb
    refine ⟨fun h => (nomatch h), fun ⟨⟨i, hi⟩, _⟩ => ?_⟩
    rw [boundary_eq_ok.mpr hi] at hb
    cases hb

theorem isDefined_iff {wide : Bool} {q : Request} :
    q.isDefined wide = true ↔ ∃ i, decode q.raw = .ok i ∧ admitted wide i = true := by
  unfold Request.isDefined
  split <;> simp [*]

/-! ### A whole step -/

/-- Everything a step that answers can have done: it took one outstanding request that decodes to an
admitted instruction, and appended that request's one response. -/
theorem step_next_cases {s t : State} (h : step s = .next t) :
    ∃ k, ∃ hk : k < s.requests.length, ∃ i, decode s.requests[k].raw = .ok i ∧
      admitted s.wideEnc32 i = true ∧
      t = { s with
        requests := s.requests.eraseIdx k
        active := s.requests[k].ticket
        responses := s.responses ++ [⟨s.requests[k].ticket, i, resultOf i⟩]
        turn := s.turn + 1 } := by
  by_cases hne : s.requests = []
  · simp [step, accept_eq_none.mpr hne] at h
  · obtain ⟨k, hk, e⟩ := accept_eq_some hne
    simp only [step, e] at h
    split at h
    · rename_i i hd
      obtain ⟨ha, ht⟩ := exec_next_iff.mp h
      exact ⟨k, hk, i, hd, ha, ht⟩
    · cases h

end Sys2Proof.Machine
end

