-- ==== Sys2Proof/Laws/PerInstr.lean ====
section
/-!
SUPPORT. One lemma per constructor of Instr: the raw request that carries a well-formed instruction is
read as that instruction (30_encoding.md R69, R70, R74).
-/

namespace Sys2Proof.Laws.RequestRoundTrip

/-- Reading back the raw request of a well-formed instruction. -/
def Statement (i : Instr) : Prop := i.wellFormed = true → decode (encode i) = .ok i

theorem numericOperand_num {v : NumVal} (h : v.wellFormed = true) : numericOperand (.num v) = .ok v := by
  simp [numericOperand, h]

theorem bytesOperand_bytes {n : Nat} (b : Bytes n) : bytesOperand n (.bytes b.toList) = .ok b := by
  simp [bytesOperand, Vector.toList]

@[simp] theorem ofBits_bits (op : Op) : Op.ofBits op.bits = op := by cases op <;> rfl

theorem enc64 (v : NumVal) : Statement (.enc64 v) := by
  intro h
  simp only [decode, encode, Instr.op, Instr.operand, ofBits_bits, numericOperand_num h]
  rfl

theorem dec64 (b : Bytes 8) : Statement (.dec64 b) := by
  intro _
  simp only [decode, encode, Instr.op, Instr.operand, ofBits_bits, bytesOperand_bytes]
  rfl

theorem enc32 (v : NumVal) : Statement (.enc32 v) := by
  intro h
  simp only [decode, encode, Instr.op, Instr.operand, ofBits_bits, numericOperand_num h]
  rfl

theorem dec32 (b : Bytes 4) : Statement (.dec32 b) := by
  intro _
  simp only [decode, encode, Instr.op, Instr.operand, ofBits_bits, bytesOperand_bytes]
  rfl

end Sys2Proof.Laws.RequestRoundTrip
end

