-- ==== Sys2Proof/Laws/Runs.lean ====
section
/-!
SUPPORT. What an event and a run of events can do.
-/

namespace Sys2Proof.Machine

/-- A run that is not refused takes its first event and goes on. -/
theorem run_cons_next_iff {e : Event} {es : List Event} {s t : State} :
    s.run (e :: es) = .next t ↔ ∃ u, s.after e = .next u ∧ u.run es = .next t := by
  rw [State.run]
  split <;> simp_all

/-- No event changes `WIDE_ENC32`. -/
theorem after_wideEnc32 {e : Event} {s t : State} (h : s.after e = .next t) : t.wideEnc32 = s.wideEnc32 := by
  cases e with
  | step =>
    obtain ⟨_, _, _, _, _, rfl⟩ := step_next_cases h
    rfl
  | issue => rw [(issue_next_iff.mp h).2, enqueue_wideEnc32]
  | platformReset => exact (Host.Outcome.next.inj h) ▸ rfl
  | idle => exact (Host.Outcome.next.inj h) ▸ rfl

end Sys2Proof.Machine
end

