-- ==== Sys2Proof/Tests/Slice0.lean ====
section
/-!
SUPPORT. Small tests. Expected results are the vectors of spec/95_test_vectors.md or are written out
from the layouts of 30_encoding.md R61, R62 and the op-select table R70.
-/

namespace Sys2Proof.Tests

open Sys2Proof.Machine

/-! ### WellFormed refuses what is no NumVal (R15) -/

theorem test_wf_refuses_zero_magnitude : (Instr.enc64 (.fin .plus 0)).wellFormed = false := by
  decide +kernel

theorem test_wf_refuses_negative_magnitude : (Instr.enc32 (.fin .minus (-1))).wellFormed = false := by
  decide +kernel

theorem test_wf_accepts_values :
    (Instr.enc64 (.fin .minus (mkRat 1 3))).wellFormed = true ∧ (Instr.enc32 (.nan .plus 7)).wellFormed = true ∧
      (Instr.dec32 #v[0, 0, 0, 0]).wellFormed = true := by
  decide +kernel

/-! ### Decoding, word by word (R69, R70) -/

theorem test_decode_enc64 : decode ⟨0b00, .num (.zero .minus)⟩ = .ok (.enc64 (.zero .minus)) := by rfl

theorem test_decode_dec64 : decode ⟨0b01, .bytes [0x7F, 0xF0, 0, 0, 0, 0, 0, 1]⟩ =
    .ok (.dec64 #v[0x7F, 0xF0, 0, 0, 0, 0, 0, 1]) := by rfl

theorem test_decode_enc32 : decode ⟨0b10, .num (.inf .plus)⟩ = .ok (.enc32 (.inf .plus)) := by rfl

theorem test_decode_dec32 : decode ⟨0b11, .bytes [0x3D, 0xCC, 0xCC, 0xCD]⟩ =
    .ok (.dec32 #v[0x3D, 0xCC, 0xCC, 0xCD]) := by rfl

theorem test_decode_rejects_by_name :
    decode ⟨0b00, .bytes [0]⟩ = .error .operandNotNumeric ∧
    decode ⟨0b11, .num (.zero .plus)⟩ = .error .operandNotBytes ∧
    decode ⟨0b01, .bytes [0, 0, 0, 0]⟩ = .error (.wrongByteCount 8 4) ∧
    decode ⟨0b10, .num (.fin .plus 0)⟩ = .error .magnitudeNotPositive :=
  ⟨rfl, rfl, rfl, rfl⟩

/-- The four rows of spec/opcode_table.json, and each run as the first transaction after reset. -/
theorem test_table_words :
    [0, 1, 2, 3].map (decodeTableWord 8) =
      [some (.enc64 (.zero .plus)), some (.dec64 #v[0, 0, 0, 0, 0, 0, 0, 0]),
        some (.enc32 (.zero .plus)), some (.dec32 #v[0, 0, 0, 0])] := by
  rfl

theorem test_table_word_runs : step (State.reset.withFetchWord 8 3) =
    .next { State.reset with
      responses := [⟨⟨0, 0⟩, .dec32 #v[0, 0, 0, 0], .num (.zero .plus)⟩], issued := 1, turn := 1 } := by
  rfl

/-! ### One transaction each, on a machine with that one request outstanding -/

/-- The machine after reset with one request of caller 7 outstanding, for either value of `WIDE_ENC32`. -/
def lone (wide : Bool) (i : Instr) : State := { State.reset with wideEnc32 := wide }.enqueue 7 (encode i)

/-- The newest response of a step. -/
def response : Host.Outcome State Fault Refusal → Option Result
  | .next s => s.responses.getLast?.map Response.out
  | .fault _ => none
  | .refused _ => none

/-- Section 2.1, "binary64 nearest 0.1". -/
theorem test_enc64_tenth :
    response (step (lone false (.enc64 (.fin .plus (mkRat 3602879701896397 (2 ^ 55)))))) =
      some (.bytes8 #v[0x3F, 0xB9, 0x99, 0x99, 0x99, 0x99, 0x99, 0x9A]) := by
  decide +kernel

/-- Section 2.1, "3×2^-1074". -/
theorem test_enc64_subnormal :
    response (step (lone false (.enc64 (.fin .plus (mkRat 3 (2 ^ 1074)))))) =
      some (.bytes8 #v[0, 0, 0, 0, 0, 0, 0, 3]) := by
  decide +kernel

/-- Section 2.4, `00 08 00 00 00 00 00 00`. -/
theorem test_dec64_subnormal :
    response (step (lone false (.dec64 #v[0, 8, 0, 0, 0, 0, 0, 0]))) =
      some (.num (.fin .plus (mkRat 1 (2 ^ 1023)))) := by
  decide +kernel

/-- Section 2.4, the signalling pattern `7F F0 00 00 00 00 00 01` with its sign bit set. -/
theorem test_dec64_nan :
    response (step (lone false (.dec64 #v[0xFF, 0xF0, 0, 0, 0, 0, 0, 1]))) =
      some (.num (.nan .minus Config.canonPayload)) := by
  rfl

/-- Section 2.3, "binary64 nearest -pi": truncated toward zero. -/
theorem test_enc32_wide_truncates :
    response (step (lone true (.enc32 (.fin .minus (mkRat 884279719003555 (2 ^ 48)))))) =
      some (.bytes4 #v[0xC0, 0x49, 0x0F, 0xDA]) := by
  decide +kernel

/-- Section 2.2, last row: the same input class is refused where `WIDE_ENC32` is false. -/
theorem test_enc32_narrow_refuses :
    response (step (lone false (.enc32 (.fin .plus (mkRat 3602879701896397 (2 ^ 55)))))) = none := by
  decide +kernel

/-- R157: the boundary refuses it when it is issued. -/
theorem test_issue_narrow_refuses :
    (match State.reset.issue 7 ⟨0b10, .num (.fin .plus (mkRat 3602879701896397 (2 ^ 55)))⟩ with
      | .refused why => some why
      | .next _ => none
      | .fault _ => none) = some (.operandNotAdmitted .enc32) := by
  decide +kernel

/-- Section 2.5, `40 49 0F DB`. -/
theorem test_dec32_pi :
    response (step (lone false (.dec32 #v[0x40, 0x49, 0x0F, 0xDB]))) =
      some (.num (.fin .plus (mkRat 13176795 (2 ^ 22)))) := by
  decide +kernel

/-- Section 2.5, `80 00 00 01`. -/
theorem test_dec32_negative_subnormal :
    response (step (lone false (.dec32 #v[0x80, 0, 0, 1]))) =
      some (.num (.fin .minus (mkRat 1 (2 ^ 149)))) := by
  decide +kernel

/-- R75: a line binds its variable, and a name no line set is refused. -/
theorem test_line_unset_variable :
    (match runLine 0 ⟨"b", .enc64, .variable "v"⟩ ⟨[], State.reset⟩ with
      | .refused why => some why
      | .next _ => none
      | .fault _ => none) = some (.unsetVariable "v") := by
  decide

end Sys2Proof.Tests
end

