-- ==== Sys2Proof/Tests/Witnesses.lean ====
section
/-!
SUPPORT. For every statement with hypotheses, a concrete input that meets all of them together, one
for each clause, at a boundary of its range. Each is named after its statement.
-/

namespace Sys2Proof.Witness

open Sys2Proof.Machine

/-! ### States -/

/-- The machine after reset with `WIDE_ENC32` true. -/
def wideState : State := { State.reset with wideEnc32 := true }

/-- Two requests outstanding: one of each direction, from two callers. -/
def busy : State := (State.reset.enqueue 1 (encode (.dec32 #v[0, 0, 0, 1]))).enqueue 2 (encode (.enc64 (.inf .minus)))

/-- One response given and one request outstanding. -/
def answered : State :=
  { State.reset with
    requests := [⟨⟨1, 2⟩, encode (.enc64 (.inf .minus))⟩]
    responses := [⟨⟨0, 1⟩, .dec32 #v[0, 0, 0, 0], .num (.zero .plus)⟩]
    issued := 2 }

/-! ### Values in scientific form -/

theorem witness_EncodeSubnormal :
    (1 / 2 ≤ (1 / 2 : ℚ) ∧ (1 / 2 : ℚ) < 1) ∧
    admittedEnc64 (.fin .plus (1 / 2 * 2 ^ (-1073 : ℤ))) = true ∧
    (1 / 2 * 2 ^ (-1073 : ℤ) : ℚ) < 2 ^ (-1022 : ℤ) ∧
    admittedEnc32 State.reset.wideEnc32 (.fin .plus (1 / 2 * 2 ^ (-148 : ℤ))) = true ∧
    inValueSet .binary32 (.fin .plus (1 / 2 * 2 ^ (-148 : ℤ))) = true ∧
    (1 / 2 * 2 ^ (-148 : ℤ) : ℚ) < 2 ^ (-126 : ℤ) := by
  simp only [← pow2_eq_zpow]
  decide +kernel

theorem witness_EncodeNormal :
    (1 / 2 ≤ (1 / 2 : ℚ) ∧ (1 / 2 : ℚ) < 1) ∧
    admittedEnc64 (.fin .plus (1 / 2 * 2 ^ (-1021 : ℤ))) = true ∧
    (2 : ℚ) ^ (-1022 : ℤ) ≤ 1 / 2 * 2 ^ (-1021 : ℤ) ∧
    admittedEnc32 State.reset.wideEnc32 (.fin .plus (1 / 2 * 2 ^ (128 : ℤ))) = true ∧
    (2 : ℚ) ^ (-126 : ℤ) ≤ 1 / 2 * 2 ^ (128 : ℤ) ∧ (128 : ℤ) + 126 ≤ 254 := by
  simp only [← pow2_eq_zpow]
  decide +kernel

theorem witness_EncodeClampsBinary32 :
    (1 / 2 ≤ (1 / 2 : ℚ) ∧ (1 / 2 : ℚ) < 1) ∧
    admittedEnc32 wideState.wideEnc32 (.fin .minus (1 / 2 * 2 ^ (129 : ℤ))) = true ∧ (254 : ℤ) < 129 + 126 := by
  simp only [← pow2_eq_zpow]
  decide +kernel

/-- A binary64 value in each of the ranges of R104, at its lower end. -/
theorem witness_WideEnc32TowardZero : wideState.wideEnc32 = true ∧
    (inValueSet .binary64 (.fin .plus (2 ^ (-150 : ℤ))) = true ∧ (2 : ℚ) ^ (-150 : ℤ) < 2 ^ (-149 : ℤ)) ∧
    (inValueSet .binary64 (.fin .plus (2 ^ (-149 : ℤ))) = true ∧ (2 : ℚ) ^ (-149 : ℤ) < 2 ^ (-126 : ℤ)) ∧
    (inValueSet .binary64 (.fin .plus (2 ^ (-126 : ℤ))) = true ∧ (2 : ℚ) ^ (-126 : ℤ) < 2 ^ (128 : ℤ)) ∧
    inValueSet .binary64 (.fin .plus (2 ^ (128 : ℤ))) = true := by
  simp only [← pow2_eq_zpow]
  decide +kernel

theorem witness_EncodeExactOnOwnValues :
    (1 / 2 ≤ (1 / 2 : ℚ) ∧ (1 / 2 : ℚ) < 1) ∧
    (inValueSet .binary64 (.fin .plus (1 / 2 * 2 ^ (-1073 : ℤ))) = true ∧
      (1 / 2 * 2 ^ (-1073 : ℤ) : ℚ) < 2 ^ (-1022 : ℤ)) ∧
    (inValueSet .binary32 (.fin .plus (1 / 2 * 2 ^ (128 : ℤ))) = true ∧
      (2 : ℚ) ^ (-126 : ℤ) ≤ 1 / 2 * 2 ^ (128 : ℤ)) := by
  simp only [← pow2_eq_zpow]
  decide +kernel

theorem witness_Enc64ExponentRange :
    (1 / 2 ≤ (1 / 2 : ℚ) ∧ (1 / 2 : ℚ) < 1) ∧
    inValueSet .binary64 (.fin .plus (1 / 2 * 2 ^ (1024 : ℤ))) = true ∧ (2 : ℚ) ^ (1024 : ℤ) ≤ 2 ^ (1024 : ℤ) := by
  simp only [← pow2_eq_zpow]
  decide +kernel

theorem witness_FractionClosedForms : (0 : ℚ) < 3 / 7 := by norm_num

theorem witness_NormalizeIsScientificForm : (0 : ℚ) < 1 ∧ scientificForm 1 = (1 / 2, 1) := by decide +kernel

theorem witness_EncodeKeepsSign : inValueSet .binary64 (.fin .minus (2 ^ (-1074 : ℤ))) = true := by
  rw [← pow2_eq_zpow]
  decide +kernel

/-- The largest fields of each format, and the largest value of `V64`. -/
theorem witness_PackingIsInRange :
    (∀ fmt : Fmt, (⟨.minus, fmt.emaxField, 2 ^ fmt.T - 1⟩ : Fields).E ≤ fmt.emaxField ∧
      (⟨.minus, fmt.emaxField, 2 ^ fmt.T - 1⟩ : Fields).F < 2 ^ fmt.T) ∧
    inValueSet .binary64 (.fin .plus ((2 ^ 53 - 1) * 2 ^ (971 : ℤ))) = true := by
  refine ⟨fun fmt => by cases fmt <;> decide, ?_⟩
  rw [← pow2_eq_zpow]
  decide +kernel

theorem witness_ClassesOfInputs :
    inValueSet .binary64 (.fin .plus 1) = true ∧ inValueSet .binary32 (.fin .plus 1) = true := by
  decide +kernel

theorem witness_ValueSets : inValueSet .binary32 (.fin .plus 1) = true := by decide +kernel

/-! ### Admission and refusal -/

theorem witness_NoIllegalEncodings :
    admittedEnc64 (.fin .plus 1) = true ∧ admittedEnc32 State.reset.wideEnc32 (.fin .plus 1) = true ∧
    admittedEnc64 (.fin .plus (2 ^ (1024 : ℤ))) = false ∧
    admittedEnc32 State.reset.wideEnc32 (.fin .plus (2 ^ (128 : ℤ))) = false := by
  simp only [← pow2_eq_zpow]
  decide +kernel

theorem witness_EncodersRefuseNotAdmitted : State.reset.wideEnc32 = false ∧ wideState.wideEnc32 = true := by
  decide

theorem witness_AdmittedIsTheOnlyPrecondition :
    admitted State.reset.wideEnc32 (.dec32 #v[0, 0, 0, 0]) = true ∧
    admitted State.reset.wideEnc32 (.enc32 (.fin .plus (2 ^ (128 : ℤ)))) = false := by
  simp only [← pow2_eq_zpow]
  decide +kernel

/-! ### Words -/

theorem witness_WidthsDoNotMix :
    (#v[0x3F, 0x80, 0, 0, 0xFF, 0xFF, 0xFF, 0xFF] : Bytes 8)[0] = 0x3F ∧
    (#v[0x3F, 0x80, 0, 0, 0xFF, 0xFF, 0xFF, 0xFF] : Bytes 8)[1] = 0x80 ∧
    (#v[0x3F, 0x80, 0, 0, 0xFF, 0xFF, 0xFF, 0xFF] : Bytes 8)[2] = 0 ∧
    (#v[0x3F, 0x80, 0, 0, 0xFF, 0xFF, 0xFF, 0xFF] : Bytes 8)[3] = 0 := by
  decide

/-- A NaN input encodes to a NaN word, and there are words of the other classes. -/
theorem witness_ImageOfEncoders :
    inValueSet .binary64 (.nan .minus 5) = true ∧
    wordClass .binary64 (unpack .binary64 (word .binary64 (encodeValue .binary64 (.nan .minus 5)))) = .nan ∧
    wordClass .binary32 (unpack .binary32 (word .binary32 (encodeValue .binary32 (.nan .minus 5)))) = .nan ∧
    wordClass .binary32 (unpack .binary32 0x7F800000#32) ≠ .nan := by
  decide +kernel

/-- A word of each class and its fields: zero, the largest subnormal, the smallest and the largest normal, an
infinity, a NaN. -/
theorem witness_DecodersByClass :
    [0x00000000, 0x007FFFFF, 0x00800000, 0x7F7FFFFF, 0x7F800000, 0x7F800001].map
      (fun w : ℕ => (w / 2 ^ 23 % 2 ^ 8, w % 2 ^ 23)) =
      [(0, 0), (0, 8388607), (1, 0), (254, 8388607), (255, 0), (255, 1)] ∧
    (∑ k : Fin 4, (#v[0x7F, 0x80, 0, 1] : Bytes 4)[k].toNat * 2 ^ (24 - 8 * k.val)) = 0x7F800001 ∧
    (∑ k : Fin 8, (#v[0xFF, 0xF0, 0, 0, 0, 0, 0, 1] : Bytes 8)[k].toNat * 2 ^ (56 - 8 * k.val)) = 0xFFF0000000000001 ∧
    ((Sign.minus = .minus) ↔ (#v[0xFF, 0xF0, 0, 0, 0, 0, 0, 1] : Bytes 8)[0].getLsbD 7 = true) := by
  decide +kernel

/-- The largest subnormal and the smallest normal, of each sign. -/
theorem witness_DecodersKeepOrder :
    ((unpack .binary32 0x007FFFFF#32).s = .plus ∧ (unpack .binary32 0x00800000#32).s = .plus ∧
      (0x007FFFFF#32).toNat < (0x00800000#32).toNat) ∧
    ((unpack .binary32 0x807FFFFF#32).s = .minus ∧ (unpack .binary32 0x80800000#32).s = .minus ∧
      (0x807FFFFF#32).toNat < (0x80800000#32).toNat) ∧
    [0x007FFFFF#32, 0x00800000#32, 0x807FFFFF#32, 0x80800000#32].all
      (fun w => wordClass .binary32 (unpack .binary32 w) != .nan) = true := by
  decide +kernel

theorem witness_ExponentSweep : (0 : ℕ) ≤ Fmt.emaxField .binary64 ∧ 2047 ≤ Fmt.emaxField .binary64 ∧
    255 ≤ Fmt.emaxField .binary32 := by
  decide

theorem witness_RoundTrips :
    wordClass .binary32 (unpack .binary32 (word .binary32 #v[0x80, 0, 0, 1])) ≠ .nan ∧
    wordClass .binary32 (unpack .binary32 (word .binary32 #v[0xFF, 0x80, 0, 1])) = .nan ∧
    inValueSet .binary32 (.zero .minus) = true ∧ (NumVal.zero .minus).isNaN = false := by
  decide +kernel

theorem witness_WideningIsExact :
    wordClass .binary32 (unpack .binary32 (word .binary32 #v[0, 0, 0, 1])) ≠ .nan := by
  decide +kernel

/-! ### Native representations -/

/-- A host whose words are the values of the format themselves; every NaN is quiet. -/
def plainHost (fmt : Fmt) : NativeRepr { v : NumVal // inValueSet fmt v = true } where
  toVal h := h.val
  ofVal v := if h : inValueSet fmt v = true then ⟨v, h⟩ else ⟨.zero .plus, rfl⟩
  isQuiet h := h.val.isNaN

theorem witness_NativeRoundTrips (fmt : Fmt) : (plainHost fmt).Lawful fmt where
  toVal_mem h := h.property
  toVal_ofVal v hv _ := by simp [plainHost, hv]
  ofVal_toVal h _ := by simp [plainHost, h.property]
  nan_sign s pl := ⟨pl, by simp [plainHost, inValueSet]⟩
  canon_quiet s := by simp [plainHost, inValueSet]

/-- That host has a word that is no NaN and one that is. -/
theorem witness_NativeRoundTrips_words :
    ((plainHost .binary32).toVal ⟨.zero .minus, rfl⟩).isNaN = false ∧
    ((plainHost .binary32).toVal ⟨.nan .minus 3, rfl⟩).isNaN = true := by
  decide

/-! ### The machine -/

theorem witness_StepRunsTheDecodedRequest :
    busy.requests ≠ [] ∧ (Instr.enc64 (.inf .minus)).wellFormed = true ∧
    ({ State.reset with requests := [⟨⟨0, 0⟩, encode (.enc64 (.inf .minus))⟩] } : State).requests =
      [⟨⟨0, 0⟩, encode (.enc64 (.inf .minus))⟩] ∧
    decodeTableWord 8 3 = some (.dec32 #v[0, 0, 0, 0]) := by
  refine ⟨?_, ?_, rfl, ?_⟩ <;> decide +kernel

/-- Its first statement has an input of both kinds: a request outstanding that decodes, and one that does not. -/
theorem witness_StepRunsTheDecodedRequest_kinds :
    (∀ q ∈ busy.requests, ∃ i, decode q.raw = .ok i) ∧ decode ⟨0b10, .bytes [0]⟩ = .error .operandNotNumeric := by
  refine ⟨?_, rfl⟩
  intro q hq
  obtain rfl | rfl : q = ⟨⟨0, 1⟩, encode (.dec32 #v[0, 0, 0, 1])⟩ ∨ q = ⟨⟨1, 2⟩, encode (.enc64 (.inf .minus))⟩ := by
    simpa [busy] using hq
  all_goals exact ⟨_, rfl⟩

/-- The machine after reset with two requests outstanding that are none. -/
def confused : State := (State.reset.enqueue 1 ⟨0b01, .bytes []⟩).enqueue 2 ⟨0b10, .bytes [0]⟩

theorem witness_StepsThatAnswerNothing :
    decode ⟨0b01, .bytes []⟩ = .error (.wrongByteCount 8 0) ∧
    confused.requests ≠ [] ∧ (∀ q ∈ confused.requests, ∃ why, decode q.raw = .error why) ∧
    step (State.reset.enqueue 1 ⟨0b01, .bytes []⟩) = .refused (.malformedRequest (.wrongByteCount 8 0)) := by
  refine ⟨rfl, by decide, ?_, rfl⟩
  intro q hq
  obtain rfl | rfl : q = ⟨⟨0, 1⟩, ⟨0b01, .bytes []⟩⟩ ∨ q = ⟨⟨1, 2⟩, ⟨0b10, .bytes [0]⟩⟩ := by
    simpa [confused] using hq
  all_goals exact ⟨_, rfl⟩

/-- Each of the four operations answers, so the frame is about something. -/
theorem witness_FrameOfOperations (st : State) :
    (∃ t, exec (.enc64 (.zero .plus)) st = .next t) ∧ (∃ t, exec (.dec64 #v[0, 0, 0, 0, 0, 0, 0, 0]) st = .next t) ∧
    (∃ t, exec (.enc32 (.zero .plus)) st = .next t) ∧ ∃ t, exec (.dec32 #v[0, 0, 0, 0]) st = .next t :=
  ⟨⟨_, rfl⟩, ⟨_, rfl⟩, ⟨_, rfl⟩, ⟨_, rfl⟩⟩

theorem witness_ResponseDependsOnRequestAlone :
    busy.wideEnc32 = State.reset.wideEnc32 ∧ (∃ t, exec (.enc32 (.zero .plus)) busy = .next t) ∧
    ∃ t, exec (.enc32 (.zero .plus)) wideState = .next t :=
  ⟨rfl, ⟨_, rfl⟩, ⟨_, rfl⟩⟩

theorem answered_responses_right : ∀ r ∈ answered.responses, r.IsRight answered.wideEnc32 := by
  simp [answered, Response.IsRight, answer_eq, admitted, resultOf]
  rfl

/-- A state that meets the invariant, has answered a request, and takes a step. -/
theorem witness_StepKeepsInvariant : answered.Inv ∧ ∃ t, step answered = .next t :=
  ⟨⟨answered_responses_right, by decide, by decide⟩, ⟨_, rfl⟩⟩

/-- The same state is safe too, and its step meets the hypothesis of FrameOfStep. -/
theorem answered_safe : answered.Safe := by
  unfold State.Safe
  decide

/-- A request that passes the boundary, issued in that state. -/
theorem witness_OutsideKeepsInvariant : answered.Inv ∧ answered.Safe ∧
    ∃ t, answered.issue 3 (encode (.dec32 #v[0, 0, 0, 0])) = .next t :=
  ⟨witness_StepKeepsInvariant.1, answered_safe, ⟨_, rfl⟩⟩

theorem witness_FrameOfStep : ∃ t, step answered = .next t := witness_StepKeepsInvariant.2

/-- Two requests outstanding, both defined. -/
theorem witness_SafeStatesProgress : busy.Safe ∧ busy.requests ≠ [] := by
  refine ⟨?_, by decide⟩
  unfold State.Safe
  decide

theorem witness_EveryRequestIsAnswered : busy.Safe ∧ busy.requests.length = 2 :=
  ⟨witness_SafeStatesProgress.1, rfl⟩

theorem witness_OrderOfRequestsDoesNotMatter :
    busy.Safe ∧ busy.requests.Perm ({ busy with requests := busy.requests.reverse } : State).requests :=
  ⟨witness_SafeStatesProgress.1, (List.reverse_perm _).symm⟩

theorem witness_LinesAreTransactions :
    State.reset.requests = [] ∧
    (∃ t, State.reset.issue 0 (encode (.dec32 #v[0, 0, 0, 1])) = .next t) ∧
    State.reset.issue 0 ⟨0b10, .bytes [0]⟩ = .refused (.malformedRequest .operandNotNumeric) ∧
    (Arg.variable "b").operand [("b", .bytes4 #v[0, 0, 0, 1])] = .ok (.bytes [0, 0, 0, 1]) ∧
    decode ⟨Op.dec32.bits, .bytes [0, 0, 0, 1]⟩ = .ok (.dec32 #v[0, 0, 0, 1]) ∧
    (answer State.reset.wideEnc32 (.dec32 #v[0, 0, 0, 1])).isSome = true :=
  ⟨rfl, ⟨_, rfl⟩, rfl, rfl, rfl, rfl⟩

/-! ### A fair run -/

/-- One request, answered at once, and then nothing more. -/
def briefRun : ℕ → State
  | 0 => answered
  | _ + 1 => { answered with
      requests := []
      active := ⟨1, 2⟩
      responses := answered.responses ++ [⟨⟨1, 2⟩, .enc64 (.inf .minus), .bytes8 #v[0xFF, 0xF0, 0, 0, 0, 0, 0, 0]⟩]
      turn := 1 }

/-- The events of that run. -/
def briefEvents : ℕ → Event
  | 0 => .step
  | _ + 1 => .idle

theorem witness_EveryRequestIsEventuallyAnswered :
    IsFairRun briefRun briefEvents ∧ ⟨⟨1, 2⟩, encode (.enc64 (.inf .minus))⟩ ∈ (briefRun 0).requests := by
  refine ⟨⟨fun n => ?_, fun n => ⟨n + 1, by omega, .inr rfl⟩⟩, by decide⟩
  cases n <;> rfl

/-! ### A refused run -/

/-- The least values that are not admitted, issued after a platform reset and before another. -/
theorem witness_NotAdmittedRequestsRefuseTheRun :
    (NumVal.fin .plus (2 ^ (1024 : ℤ))).wellFormed = true ∧ admittedEnc64 (.fin .plus (2 ^ (1024 : ℤ))) = false ∧
    (NumVal.fin .plus (2 ^ (128 : ℤ))).wellFormed = true ∧
    admittedEnc32 State.reset.wideEnc32 (.fin .plus (2 ^ (128 : ℤ))) = false ∧
    Event.issue 1 ⟨0b10, .num (.fin .plus (2 ^ (128 : ℤ)))⟩ ∈
      [.platformReset, .issue 1 ⟨0b10, .num (.fin .plus (2 ^ (128 : ℤ)))⟩, .platformReset] := by
  refine ⟨?_, ?_, ?_, ?_, by simp⟩ <;> rw [← pow2_eq_zpow] <;> decide +kernel

/-- A run that is not refused, from a safe state: a request issued, and the two outstanding ones answered. -/
theorem witness_NotAdmittedRequestsRefuseTheRun_next : answered.Safe ∧
    ∃ t, answered.run [.step, .issue 3 (encode (.dec32 #v[0, 0, 0, 0])), .step] = .next t :=
  ⟨answered_safe, ⟨_, rfl⟩⟩

end Sys2Proof.Witness
end

/-!
Words, their fields and their bytes: each way of writing a word is undone by reading it (R63 to R65).
-/

namespace Sys2Proof.Machine

/-! ### Words and bytes -/

theorem two_pow_N (fmt : Fmt) : 2 ^ fmt.N = 256 ^ fmt.NB := by cases fmt <;> rfl

/-- The number of byte `k` of a sequence; past its end there are zeros. -/
def byteNat {n : ℕ} (b : Bytes n) (k : ℕ) : ℕ := (b[k]?.getD 0).toNat

theorem byteNat_lt {n : ℕ} (b : Bytes n) (k : ℕ) : byteNat b k < 256 := BitVec.isLt _

theorem byteNat_of_lt {n k : ℕ} (b : Bytes n) (hk : k < n) : byteNat b k = b[k].toNat := by
  simp [byteNat, hk]

/-- The digits of a number, most significant first, stand for its remainder. -/
theorem bigEndian_digits (x n : ℕ) :
    bigEndian (fun k => x / 256 ^ (n - 1 - k) % 256) n = x % 256 ^ n := by
  induction n generalizing x with
  | zero => simp [bigEndian, Nat.mod_one]
  | succ n ih =>
    have hinit : bigEndian (fun k => x / 256 ^ (n + 1 - 1 - k) % 256) n = x / 256 % 256 ^ n := by
      rw [← ih]
      refine Finset.sum_congr rfl fun k hk => ?_
      have := Finset.mem_range.mp hk
      dsimp only
      rw [Nat.div_div_eq_div_mul, ← pow_succ', show n + 1 - 1 - k = n - 1 - k + 1 by omega]
    rw [bigEndian_succ, hinit, pow_succ', Nat.mod_mul]
    simp only [Nat.add_sub_cancel, Nat.sub_self, pow_zero, Nat.div_one]
    omega

theorem sum_places_eq_bigEndian (fmt : Fmt) (b : Bytes fmt.NB) :
    ∑ k : Fin fmt.NB, b[k].toNat * 2 ^ (fmt.N - 8 - 8 * k.val) = bigEndian (byteNat b) fmt.NB := by
  rw [bigEndian, ← Fin.sum_univ_eq_sum_range]
  exact Finset.sum_congr rfl fun k _ => by rw [two_pow_place, byteNat_of_lt b k.isLt]; rfl

theorem word_toNat_eq_bigEndian (fmt : Fmt) (b : Bytes fmt.NB) :
    (word fmt b).toNat = bigEndian (byteNat b) fmt.NB := by
  rw [word, BitVec.toNat_ofNat, ← List.ofFn_eq_map, List.sum_ofFn, sum_places_eq_bigEndian,
    Nat.mod_eq_of_lt]
  rw [two_pow_N]
  exact bigEndian_lt (byteNat_lt b) _

theorem word_toNat (fmt : Fmt) (b : Bytes fmt.NB) :
    (word fmt b).toNat = ∑ k : Fin fmt.NB, b[k].toNat * 2 ^ (fmt.N - 8 - 8 * k.val) := by
  rw [word_toNat_eq_bigEndian, sum_places_eq_bigEndian]

theorem bytes_getElem_toNat (fmt : Fmt) (w : Word fmt) {k : ℕ} (hk : k < fmt.NB) :
    (bytes fmt w)[k].toNat = w.toNat / 256 ^ (fmt.NB - 1 - k) % 256 := by
  have hwidth : fmt.N - 1 - 8 * k - (fmt.N - 8 - 8 * k) + 1 = 8 := by
    have := N_eq_eight_mul_NB fmt
    omega
  simp [bytes, slice, hwidth, two_pow_place]

@[simp] theorem bytes_word (fmt : Fmt) (b : Bytes fmt.NB) : bytes fmt (word fmt b) = b := by
  refine Vector.ext fun k hk => BitVec.eq_of_toNat_eq ?_
  rw [bytes_getElem_toNat fmt _ hk, word_toNat_eq_bigEndian, bigEndian_digit (byteNat_lt b) hk,
    byteNat_of_lt b hk]

@[simp] theorem word_bytes (fmt : Fmt) (w : Word fmt) : word fmt (bytes fmt w) = w := by
  refine BitVec.eq_of_toNat_eq ?_
  have hdigits : bigEndian (byteNat (bytes fmt w)) fmt.NB =
      bigEndian (fun k => w.toNat / 256 ^ (fmt.NB - 1 - k) % 256) fmt.NB := by
    refine Finset.sum_congr rfl fun k hk => ?_
    have hk := Finset.mem_range.mp hk
    rw [byteNat_of_lt _ hk, bytes_getElem_toNat fmt w hk]
  rw [word_toNat_eq_bigEndian, hdigits, bigEndian_digits, ← two_pow_N, Nat.mod_eq_of_lt w.isLt]

/-! ### Words and fields -/

theorem pack_toNat (fmt : Fmt) {f : Fields} (hE : f.E ≤ fmt.emaxField) (hF : f.F < 2 ^ fmt.T) :
    (pack fmt f).toNat = f.s.bit * 2 ^ (fmt.N - 1) + f.E * 2 ^ fmt.T + f.F := by
  have := bit_le_one f.s
  rw [pack, BitVec.toNat_ofNat, Nat.mod_eq_of_lt]
  cases fmt <;> simp only [Fmt.T, Fmt.N, Fmt.emaxField, Fmt.W] at * <;> omega

theorem unpack_pack (fmt : Fmt) {f : Fields} (hE : f.E ≤ fmt.emaxField) (hF : f.F < 2 ^ fmt.T) :
    unpack fmt (pack fmt f) = f := by
  have hs := bit_le_one f.s
  have hfields : (pack fmt f).toNat / 2 ^ (fmt.N - 1) % 2 = f.s.bit ∧
      (pack fmt f).toNat / 2 ^ fmt.T % 2 ^ fmt.W = f.E ∧ (pack fmt f).toNat % 2 ^ fmt.T = f.F := by
    rw [pack_toNat fmt hE hF]
    cases fmt <;> simp only [Fmt.T, Fmt.N, Fmt.emaxField, Fmt.W] at * <;> omega
  obtain ⟨hbit, hexp, hfrac⟩ := hfields
  rw [unpack_eq, hbit, hexp, hfrac, ofBit_bit]

@[simp] theorem pack_unpack (fmt : Fmt) (w : Word fmt) : pack fmt (unpack fmt w) = w := by
  obtain ⟨hE, hF⟩ := unpack_ranges fmt w
  refine BitVec.eq_of_toNat_eq ?_
  rw [pack_toNat fmt hE hF, unpack_eq, bit_ofBit (Nat.mod_lt _ (by norm_num))]
  have := w.isLt
  cases fmt <;> simp only [Fmt.T, Fmt.N, Fmt.W] at * <;> omega

end Sys2Proof.Machine

/-!
The values of a format and the fields of its words are the same thing: every value is what fields in range decode to
(R26, R131), and encoding finds those fields again (R103, R132).
-/

namespace Sys2Proof.Machine

/-! ### Constants and powers -/

theorem two_zpow_natCast_add (n : ℕ) (q : ℤ) : (2 : ℚ) ^ ((n : ℤ) + q) = 2 ^ n * 2 ^ q := by
  rw [zpow_add₀ (by norm_num), zpow_natCast]

/-- The subnormal fractions reach up to the smallest normal magnitude. -/
theorem two_pow_T_mul_subExp (fmt : Fmt) : (2 : ℚ) ^ fmt.T * 2 ^ fmt.subExp = 2 ^ fmt.emin := by
  rw [emin_eq_subExp_add, add_comm, two_zpow_natCast_add]

theorem neg_subExp (fmt : Fmt) : -fmt.subExp = fmt.normOffset + fmt.P - 1 := by cases fmt <;> rfl

/-- A significand of `T + 1` bits with its leading bit set fixes the exponent. -/
theorem normExponent_significand {M T : ℕ} (hM : 2 ^ T ≤ M) (hM' : M < 2 ^ (T + 1)) (q : ℤ) :
    normExponent (M * 2 ^ q) = (T : ℤ) + q + 1 := by
  have hlo : (2 : ℚ) ^ T ≤ M := by exact_mod_cast hM
  have hhi : (M : ℚ) < 2 ^ (T + 1) := by exact_mod_cast hM'
  refine normExponent_eq ?_ ?_
  · rw [add_sub_cancel_right, two_zpow_natCast_add]
    gcongr
  · rw [show (T : ℤ) + q + 1 = (T + 1 : ℕ) + q by push_cast; ring, two_zpow_natCast_add]
    gcongr

/-! ### Scientific form -/

theorem scientificForm_eq (a : ℚ) : scientificForm a = (a * 2 ^ (-normExponent a), normExponent a) := by
  simp only [scientificForm, pow2_eq_zpow]

theorem scientificForm_eq_iff {a m : ℚ} {e : ℤ} (ha : 0 < a) :
    scientificForm a = (m, e) ↔ 1 / 2 ≤ m ∧ m < 1 ∧ a = m * 2 ^ e := by
  rw [scientificForm_eq, Prod.mk.injEq]
  constructor
  · rintro ⟨rfl, rfl⟩
    obtain ⟨hlo, hhi⟩ := normExponent_bracket ha
    rw [zpow_sub_one₀ (by norm_num)] at hlo
    have hp : (0 : ℚ) < 2 ^ normExponent a := by positivity
    rw [zpow_neg, ← div_eq_mul_inv, le_div_iff₀ hp, div_lt_one hp, div_mul_cancel₀ _ hp.ne']
    exact ⟨by linarith, hhi, rfl⟩
  · rintro ⟨hm, hm', rfl⟩
    obtain ⟨hlo, hhi⟩ := scientific_bracket e hm hm'
    rw [normExponent_eq hlo hhi, mul_assoc, ← zpow_add₀ (by norm_num)]
    simp

/-! ### Value sets -/

theorem lastPlace_le {fmt : Fmt} {M : ℕ} {q : ℤ} (hpos : 1 ≤ M) (hM : M < 2 ^ fmt.P) (hq : fmt.subExp ≤ q) :
    lastPlace fmt (M * 2 ^ q) ≤ q := by
  have ha : (0 : ℚ) < M * 2 ^ q := by positivity
  have hM : (M : ℚ) < 2 ^ fmt.P := by exact_mod_cast hM
  have hlt : (2 : ℚ) ^ (normExponent (M * 2 ^ q) - 1) < 2 ^ ((fmt.P : ℤ) + q) := by
    rw [two_zpow_natCast_add]
    exact (normExponent_bracket ha).1.trans_lt (by gcongr)
  have := (zpow_lt_zpow_iff_right₀ (by norm_num : (1 : ℚ) < 2)).mp hlt
  rw [lastPlace]
  omega

theorem isMagnitudeOf_significand {fmt : Fmt} {M : ℕ} {q : ℤ} (hpos : 1 ≤ M) (hM : M < 2 ^ fmt.P)
    (hq : fmt.subExp ≤ q) (hq' : q ≤ fmt.bias - fmt.T) : isMagnitudeOf fmt (M * 2 ^ q) = true := by
  have hle := lastPlace_le hpos hM hq
  obtain ⟨d, hd⟩ := Int.le.dest hle
  have hint : (M : ℚ) * 2 ^ q * 2 ^ (-lastPlace fmt (M * 2 ^ q)) = (M * 2 ^ d : ℕ) := by
    rw [mul_assoc, ← zpow_add₀ (by norm_num), show q + -lastPlace fmt (M * 2 ^ q) = d by omega]
    simp
  simp only [isMagnitudeOf, Bool.and_eq_true, decide_eq_true_eq, pow2_eq_zpow, hint]
  exact ⟨⟨by positivity, Rat.den_natCast _⟩, hle.trans hq'⟩

/-- A magnitude of the format at the scale of its last place: the significand is an integer of at most
`P` bits, and above the subnormal scale its leading bit is set. -/
theorem exists_significand {fmt : Fmt} {a : ℚ} (h : isMagnitudeOf fmt a = true) :
    ∃ (M : ℕ) (q : ℤ), 1 ≤ M ∧ M < 2 ^ fmt.P ∧ fmt.subExp ≤ q ∧ q ≤ fmt.bias - fmt.T ∧
      a = M * 2 ^ q ∧ (fmt.subExp < q → 2 ^ fmt.T ≤ M) := by
  simp only [isMagnitudeOf, Bool.and_eq_true, decide_eq_true_eq, pow2_eq_zpow] at h
  obtain ⟨⟨ha, hden⟩, hlast⟩ := h
  obtain ⟨hlo, hhi⟩ := normExponent_bracket ha
  have hq : lastPlace fmt a = max (normExponent a - fmt.P) fmt.subExp := rfl
  generalize lastPlace fmt a = q at *
  have hqpos : (0 : ℚ) < 2 ^ q := by positivity
  lift a * 2 ^ (-q) to ℤ using hden with n hn
  rw [zpow_neg, eq_mul_inv_iff_mul_eq₀ hqpos.ne'] at hn
  have hnpos : 0 < n := by
    have : (0 : ℚ) < n := (mul_pos_iff_of_pos_right hqpos).mp (hn ▸ ha)
    exact_mod_cast this
  lift n to ℕ using hnpos.le with M
  rw [Int.cast_natCast] at hn
  refine ⟨M, q, by omega, ?_, by omega, hlast, hn.symm, fun hsub => ?_⟩
  · have hlt : (M : ℚ) * 2 ^ q < 2 ^ fmt.P * 2 ^ q := by
      rw [hn, ← two_zpow_natCast_add]
      exact hhi.trans_le (zpow_le_zpow_right₀ (by norm_num) (by omega))
    exact_mod_cast lt_of_mul_lt_mul_right hlt hqpos.le
  · have hle : (2 : ℚ) ^ fmt.T * 2 ^ q ≤ M * 2 ^ q := by
      rw [hn, ← two_zpow_natCast_add]
      exact (zpow_le_zpow_right₀ (by norm_num) (by simp only [Fmt.P] at hq; omega)).trans hlo
    exact_mod_cast le_of_mul_le_mul_right hle hqpos

/-- R26: the finite part of a value set, in the form the rule writes it. -/
theorem isMagnitudeOf_iff {fmt : Fmt} {a : ℚ} : isMagnitudeOf fmt a = true ↔
    ∃ (M : ℕ) (q : ℤ), 1 ≤ M ∧ M < 2 ^ fmt.P ∧ fmt.subExp ≤ q ∧ q ≤ fmt.bias - fmt.T ∧ a = M * 2 ^ q := by
  constructor
  · intro h
    obtain ⟨M, q, hpos, hM, hq, hq', ha, -⟩ := exists_significand h
    exact ⟨M, q, hpos, hM, hq, hq', ha⟩
  · rintro ⟨M, q, hpos, hM, hq, hq', rfl⟩
    exact isMagnitudeOf_significand hpos hM hq hq'

/-! ### Decoding fields -/

theorem decodeFields_subnormal (fmt : Fmt) (s : Sign) {F : ℕ} (hF : F ≠ 0) :
    decodeFields fmt ⟨s, 0, F⟩ = .fin s (F * 2 ^ fmt.subExp) := by
  simp [decodeFields_eq, hF]

/-- A normal decodes to its significand at the scale of its last place. -/
theorem decodeFields_normal (fmt : Fmt) (s : Sign) {E : ℕ} (hE : 1 ≤ E) (hE' : E < fmt.emaxField) (F : ℕ) :
    decodeFields fmt ⟨s, E, F⟩ = .fin s ((2 ^ fmt.T + F : ℕ) * 2 ^ (fmt.subExp + (E - 1))) := by
  have hscale : (2 : ℚ) ^ ((E : ℤ) - fmt.bias) = 2 ^ fmt.T * 2 ^ (fmt.subExp + (E - 1)) := by
    rw [← two_zpow_natCast_add, Fmt.subExp]
    ring_nf
  simp only [decodeFields_eq, if_neg (show E ≠ 0 by omega), if_neg hE'.ne, hscale]
  congr 1
  field_simp
  push_cast
  ring

/-- Every value but a NaN is what fields in range decode to. -/
theorem exists_fields_of_value {fmt : Fmt} {v : NumVal} (hv : inValueSet fmt v = true) (hn : v.isNaN = false) :
    ∃ f : Fields, f.E ≤ fmt.emaxField ∧ f.F < 2 ^ fmt.T ∧ decodeFields fmt f = v := by
  cases v with
  | zero s => exact ⟨⟨s, 0, 0⟩, Nat.zero_le _, by positivity, by simp [decodeFields_eq]⟩
  | inf s =>
    exact ⟨⟨s, fmt.emaxField, 0⟩, le_rfl, by positivity, by simp [decodeFields_eq, (emaxField_pos fmt).ne']⟩
  | nan => cases hn
  | fin s a =>
    obtain ⟨M, q, hpos, hM, hq, hq', rfl, hlead⟩ := exists_significand hv
    by_cases hT : M < 2 ^ fmt.T
    · obtain rfl : q = fmt.subExp := by
        by_contra hne
        have := hlead (by omega)
        omega
      exact ⟨⟨s, 0, M⟩, Nat.zero_le _, hT, decodeFields_subnormal fmt s (by omega)⟩
    · obtain ⟨d, rfl⟩ := Int.le.dest hq
      have hmax := emaxField_eq_two_bias fmt
      have hE : d + 1 < fmt.emaxField := by simp only [Fmt.subExp] at hq'; omega
      refine ⟨⟨s, d + 1, M - 2 ^ fmt.T⟩, hE.le, ?_, ?_⟩
      · rw [Fmt.P, pow_succ] at hM
        dsimp only
        omega
      · rw [decodeFields_normal fmt s (by omega) hE, Nat.add_sub_cancel' (by omega)]
        simp

/-- R131: what fields in range decode to is a value of the format. -/
theorem inValueSet_decodeFields {fmt : Fmt} {f : Fields} (hE : f.E ≤ fmt.emaxField) (hF : f.F < 2 ^ fmt.T) :
    inValueSet fmt (decodeFields fmt f) = true := by
  obtain ⟨s, E, F⟩ := f
  dsimp only at hE hF
  have hmax := emaxField_eq_two_bias fmt
  have hbias := bias_eq_succ_normOffset fmt
  have hP : 2 ^ fmt.P = 2 ^ fmt.T * 2 := pow_succ ..
  by_cases h0 : E = 0
  · subst h0
    by_cases hF0 : F = 0
    · simp [decodeFields_eq, hF0, inValueSet]
    · rw [decodeFields_subnormal fmt s hF0]
      exact isMagnitudeOf_significand (by omega) (by omega) le_rfl (by simp only [Fmt.subExp]; omega)
  · by_cases hm : E = fmt.emaxField
    · by_cases hF0 : F = 0 <;> simp [decodeFields_eq, hm, hF0, inValueSet, (emaxField_pos fmt).ne']
    · rw [decodeFields_normal fmt s (by omega) (by omega)]
      exact isMagnitudeOf_significand (by have := Nat.two_pow_pos fmt.T; omega) (by omega) (by omega)
        (by simp only [Fmt.subExp]; omega)

/-! ### Encoding what fields decode to -/

/-- R106: the fraction of a subnormal is its magnitude at the subnormal scale. -/
theorem subnormalFields_eq_floor (fmt : Fmt) (s : Sign) (a : ℚ) :
    subnormalFields fmt s a = ⟨s, 0, ⌊a * 2 ^ (-fmt.subExp)⌋₊⟩ := by
  rw [subnormalFields_eq fmt s (scientificForm_eq a), mul_assoc, ← zpow_add₀ (by norm_num), neg_subExp]
  ring_nf

theorem encodeFields_subnormal (fmt : Fmt) (s : Sign) {F : ℕ} (hF : F < 2 ^ fmt.T) :
    encodeFields fmt (.fin s (F * 2 ^ fmt.subExp)) = ⟨s, 0, F⟩ := by
  have hF : (F : ℚ) < 2 ^ fmt.T := by exact_mod_cast hF
  have hlt : (F : ℚ) * 2 ^ fmt.subExp < 2 ^ fmt.emin := by
    rw [← two_pow_T_mul_subExp]
    gcongr
  rw [encodeFields_of_lt fmt s hlt, subnormalFields_eq_floor, mul_assoc, ← zpow_add₀ (by norm_num)]
  simp

theorem normalFields_eq_floor (fmt : Fmt) (s : Sign) (a : ℚ) :
    normalFields fmt s a = clampFields fmt
      ⟨s, (normExponent a + fmt.normOffset).toNat, ⌊a * 2 ^ ((fmt.P : ℤ) - normExponent a)⌋₊ % 2 ^ fmt.T⟩ := by
  rw [normalFields_eq fmt s (scientificForm_eq a), mul_assoc, ← zpow_natCast, ← zpow_add₀ (by norm_num),
    neg_add_eq_sub]

/-- A normal significand loses its leading bit, and its last place gives the exponent field. -/
theorem normalFields_significand (fmt : Fmt) (s : Sign) {M : ℕ} (hM : 2 ^ fmt.T ≤ M) (hM' : M < 2 ^ fmt.P)
    (q : ℤ) : normalFields fmt s (M * 2 ^ q) =
      clampFields fmt ⟨s, (q - fmt.subExp + 1).toNat, M - 2 ^ fmt.T⟩ := by
  have hexp : (fmt.T : ℤ) + q + 1 + fmt.normOffset = q - fmt.subExp + 1 := by
    have := bias_eq_succ_normOffset fmt
    rw [Fmt.subExp]
    omega
  have hscale : (M : ℚ) * 2 ^ q * 2 ^ ((fmt.P : ℤ) - (fmt.T + q + 1)) = M := by
    rw [mul_assoc, ← zpow_add₀ (by norm_num), Fmt.P, Nat.cast_succ,
      show q + ((fmt.T : ℤ) + 1 - (fmt.T + q + 1)) = 0 by ring]
    simp
  have hfrac : M % 2 ^ fmt.T = M - 2 ^ fmt.T := by
    rw [Fmt.P, pow_succ] at hM'
    rw [Nat.mod_eq_sub_mod hM, Nat.mod_eq_of_lt (by omega)]
  rw [normalFields_eq_floor, normExponent_significand hM hM', hexp, hscale, Nat.floor_natCast, hfrac]

theorem encodeFields_normal (fmt : Fmt) (s : Sign) {E F : ℕ} (hE : 1 ≤ E) (hE' : E < fmt.emaxField)
    (hF : F < 2 ^ fmt.T) :
    encodeFields fmt (.fin s ((2 ^ fmt.T + F : ℕ) * 2 ^ (fmt.subExp + (E - 1)))) = ⟨s, E, F⟩ := by
  have hle : (2 : ℚ) ^ fmt.emin ≤ (2 ^ fmt.T + F : ℕ) * 2 ^ (fmt.subExp + (E - 1)) := by
    rw [← two_pow_T_mul_subExp]
    gcongr
    · exact_mod_cast Nat.le_add_right ..
    · norm_num
    · omega
  have hM' : 2 ^ fmt.T + F < 2 ^ fmt.P := by
    rw [Fmt.P, pow_succ]
    omega
  have hmax := emaxField_eq_succ_emaxFin fmt
  rw [encodeFields_of_le fmt s hle, normalFields_significand fmt s (Nat.le_add_right ..) hM',
    show (fmt.subExp + (E - 1) - fmt.subExp + 1).toNat = E by omega, Nat.add_sub_cancel_left,
    clampFields_of_le fmt (by dsimp only; omega)]

/-- R132: encoding finds the fields again that a value was decoded from, unless it is a NaN. -/
theorem encodeFields_decodeFields {fmt : Fmt} {f : Fields} (hE : f.E ≤ fmt.emaxField) (hF : f.F < 2 ^ fmt.T)
    (hn : (decodeFields fmt f).isNaN = false) : encodeFields fmt (decodeFields fmt f) = f := by
  obtain ⟨s, E, F⟩ := f
  dsimp only at hE hF
  by_cases h0 : E = 0
  · subst h0
    by_cases hF0 : F = 0
    · simp [decodeFields_eq, hF0]
    · rw [decodeFields_subnormal fmt s hF0, encodeFields_subnormal fmt s hF]
  · by_cases hm : E = fmt.emaxField
    · subst hm
      by_cases hF0 : F = 0
      · simp [decodeFields_eq, hF0, h0]
      · simp [decodeFields_eq, hF0, h0] at hn
    · rw [decodeFields_normal fmt s (by omega) (by omega), encodeFields_normal fmt s (by omega) (by omega) hF]

/-- R132: the fields of a value that is no NaN are in range and decode to it. -/
theorem encodeFields_of_value {fmt : Fmt} {v : NumVal} (hv : inValueSet fmt v = true) (hn : v.isNaN = false) :
    (encodeFields fmt v).E ≤ fmt.emaxField ∧ (encodeFields fmt v).F < 2 ^ fmt.T ∧
      decodeFields fmt (encodeFields fmt v) = v := by
  obtain ⟨f, hE, hF, rfl⟩ := exists_fields_of_value hv hn
  rw [encodeFields_decodeFields hE hF hn]
  exact ⟨hE, hF, rfl⟩

end Sys2Proof.Machine

/-!
The round trips of R132 over byte sequences, and over a host's native words (R28, R29); and the idle block.
-/

namespace Sys2Proof.Machine

/-! ### Round trips over bytes -/

theorem decodeValue_isNaN_eq_false {fmt : Fmt} {b : Bytes fmt.NB}
    (hn : wordClass fmt (unpack fmt (word fmt b)) ≠ .nan) : (decodeValue fmt b).isNaN = false :=
  Bool.eq_false_iff.mpr fun h => hn (decodeFields_isNaN h).1

theorem inValueSet_decodeValue (fmt : Fmt) (b : Bytes fmt.NB) : inValueSet fmt (decodeValue fmt b) = true :=
  let ⟨hE, hF⟩ := unpack_ranges fmt (word fmt b)
  inValueSet_decodeFields hE hF

/-- Decoding an encoding whose fields are in range is decoding those fields. -/
theorem decodeValue_encodeValue_eq {fmt : Fmt} {v : NumVal} (hE : (encodeFields fmt v).E ≤ fmt.emaxField)
    (hF : (encodeFields fmt v).F < 2 ^ fmt.T) :
    decodeValue fmt (encodeValue fmt v) = decodeFields fmt (encodeFields fmt v) := by
  rw [decodeValue, encodeValue, word_bytes, unpack_pack fmt hE hF]

theorem decodeValue_encodeValue {fmt : Fmt} {v : NumVal} (hv : inValueSet fmt v = true) (hn : v.isNaN = false) :
    decodeValue fmt (encodeValue fmt v) = v := by
  obtain ⟨hE, hF, hdec⟩ := encodeFields_of_value hv hn
  rw [decodeValue_encodeValue_eq hE hF, hdec]

/-- A NaN comes back with its sign and the canonical payload. -/
theorem decodeValue_encodeValue_nan (fmt : Fmt) (s : Sign) (pl : Payload) :
    decodeValue fmt (encodeValue fmt (.nan s pl)) = .nan s Config.canonPayload := by
  rw [decodeValue_encodeValue_eq (v := .nan s pl) le_rfl (qnan_fraction_lt fmt)]
  simp [decodeFields_eq, (emaxField_pos fmt).ne']

theorem encodeValue_decodeValue {fmt : Fmt} {b : Bytes fmt.NB}
    (hn : wordClass fmt (unpack fmt (word fmt b)) ≠ .nan) : encodeValue fmt (decodeValue fmt b) = b := by
  obtain ⟨hE, hF⟩ := unpack_ranges fmt (word fmt b)
  rw [encodeValue, decodeValue, encodeFields_decodeFields hE hF (decodeValue_isNaN_eq_false hn),
    pack_unpack, bytes_word]

/-! ### Native words -/

/-- R28: a NaN word comes back as the host's canonical NaN of its sign. -/
theorem nativeDecode_nativeEncode_nan {H : Type} {fmt : Fmt} (r : NativeRepr H) {h : H}
    (hn : (r.toVal h).isNaN = true) :
    nativeDecode fmt r (nativeEncode fmt r h) = r.ofVal (.nan (r.toVal h).sign Config.canonPayload) := by
  obtain ⟨s, pl, hv⟩ : ∃ s pl, r.toVal h = .nan s pl := by
    cases hv : r.toVal h <;> simp_all
  rw [nativeDecode, nativeEncode, hv, decodeValue_encodeValue_nan, NumVal.sign]

section native
variable {H : Type} {fmt : Fmt} {r : NativeRepr H} (hr : r.Lawful fmt)
include hr

theorem nativeDecode_nativeEncode {h : H} (hn : (r.toVal h).isNaN = false) :
    nativeDecode fmt r (nativeEncode fmt r h) = h := by
  rw [nativeDecode, nativeEncode, decodeValue_encodeValue (hr.toVal_mem h) hn, hr.ofVal_toVal h hn]

theorem nativeEncode_nativeDecode {b : Bytes fmt.NB} (hn : wordClass fmt (unpack fmt (word fmt b)) ≠ .nan) :
    nativeEncode fmt r (nativeDecode fmt r b) = b := by
  rw [nativeEncode, nativeDecode, hr.toVal_ofVal _ (inValueSet_decodeValue fmt b)
    (decodeValue_isNaN_eq_false hn), encodeValue_decodeValue hn]

end native

/-! ### An idle block -/

theorem step_of_requests_nil {s : State} (h : s.requests = []) : step s = .refused .noRequest := by
  rw [step, accept_eq_none.mpr h]

end Sys2Proof.Machine

/-!
The statements of 00_scope.md.
-/

namespace Sys2Proof.Machine

/-- Settles O10: the exponent brackets its argument, and only one exponent does. -/
theorem normalizeIsScientificForm : Obligations.NormalizeIsScientificForm :=
  fun _ _ _ ha => ⟨scientificForm_eq_iff ha, normExponent_bracket ha⟩

/-- Settles O31: the trips through bytes are those of R132, and a value of a lawful host is admitted by the
encoder of its format. -/
theorem nativeRoundTrips : Obligations.NativeRoundTrips := by
  intro H fmt r hr
  refine ⟨fun h hn => nativeDecode_nativeEncode hr hn, fun h hn => ?_,
    fun b hn => nativeEncode_nativeDecode hr hn, fun h st => ?_⟩
  · obtain ⟨pl, hpl⟩ := hr.nan_sign (r.toVal h).sign Config.canonPayload
    rw [nativeDecode_nativeEncode_nan r hn, hpl]
    exact ⟨hr.canon_quiet _, rfl, rfl⟩
  · have hmem := hr.toVal_mem h
    cases fmt with
    | binary64 => exact exec_next_iff.mpr ⟨hmem, rfl⟩
    | binary32 => exact exec_next_iff.mpr ⟨by simp [admitted, admittedEnc32, hmem], rfl⟩

/-- Settles O37: a step is refused on every idle block, and the block after reset is idle. -/
theorem resetState : Obligations.ResetState :=
  ⟨reset_requests, reset_responses, reset_wideEnc32, step_of_requests_nil reset_requests⟩

end Sys2Proof.Machine

/-!
Requests and the interface: the decoder inverts the encoder (R69, R70, R74), the boundary and the transaction refuse
alike, and what a step does to the requests, the responses and the tickets (R23, R24, R165).
-/

namespace Sys2Proof.Machine

/-! ### Decoding -/

@[simp] theorem bits_ofBits (b : BitVec 2) : (Op.ofBits b).bits = b := by
  revert b
  decide

theorem numericOperand_eq_ok {x : Operand} {v : NumVal} :
    numericOperand x = .ok v ↔ v.wellFormed = true ∧ x = .num v := by
  cases x with
  | num u =>
    by_cases hu : u.wellFormed = true
    · simp only [numericOperand, hu, if_true, Except.ok.injEq, Operand.num.injEq]
      exact ⟨fun h => ⟨h ▸ hu, h⟩, And.right⟩
    · simp only [numericOperand, hu, Operand.num.injEq]
      exact ⟨nofun, fun ⟨hv, h⟩ => absurd (h ▸ hv) hu⟩
  | bytes l => simp [numericOperand]

theorem bytesOperand_eq_ok {n : ℕ} {x : Operand} {b : Bytes n} :
    bytesOperand n x = .ok b ↔ x = .bytes b.toList := by
  constructor
  · intro h
    cases x with
    | num u => cases h
    | bytes l =>
      rw [bytesOperand] at h
      split at h
      · cases h
        rfl
      · cases h
  · rintro rfl
    exact Laws.RequestRoundTrip.bytesOperand_bytes b

theorem except_map_eq_ok {ε α β : Type} {f : α → β} {x : Except ε α} {y : β} :
    x.map f = .ok y ↔ ∃ a, x = .ok a ∧ f a = y := by
  cases x <;> simp [Except.map]

theorem decode_encode {i : Instr} (h : i.wellFormed = true) : decode (encode i) = .ok i := by
  cases i with
  | enc64 v => exact Laws.RequestRoundTrip.enc64 v h
  | dec64 b => exact Laws.RequestRoundTrip.dec64 b h
  | enc32 v => exact Laws.RequestRoundTrip.enc32 v h
  | dec32 b => exact Laws.RequestRoundTrip.dec32 b h

/-- What decodes is well formed, and it names the operation and the operand it was read from. -/
theorem decode_eq_ok {r : RawRequest} {i : Instr} (h : decode r = .ok i) :
    i.wellFormed = true ∧ i.op = Op.ofBits r.op ∧ i.operand = r.operand := by
  unfold decode at h
  split at h <;> obtain ⟨x, hx, rfl⟩ := except_map_eq_ok.mp h
  case h_1 hop | h_3 hop =>
    obtain ⟨hv, hr⟩ := numericOperand_eq_ok.mp hx
    exact ⟨hv, hop.symm, hr.symm⟩
  case h_2 hop | h_4 hop => exact ⟨rfl, hop.symm, (bytesOperand_eq_ok.mp hx).symm⟩

theorem decode_eq_ok_iff {r : RawRequest} {i : Instr} :
    decode r = .ok i ↔ i.wellFormed = true ∧ encode i = r := by
  constructor
  · intro h
    obtain ⟨hwf, hop, hx⟩ := decode_eq_ok h
    exact ⟨hwf, by rw [encode, hop, hx, bits_ofBits]⟩
  · rintro ⟨hwf, rfl⟩
    exact decode_encode hwf

theorem decodeTableWord_eq_some {nbits w : ℕ} {i : Instr} :
    decodeTableWord nbits w = some i ↔ decode (rawOfTableWord nbits w) = .ok i := by
  unfold decodeTableWord
  split <;> simp [*]

/-! ### Answers and refusals -/

theorem exec_of_admitted {i : Instr} {s : State} (h : admitted s.wideEnc32 i = true) :
    exec i s = .next (s.respond i (resultOf i)) :=
  exec_next_iff.mpr ⟨h, rfl⟩

theorem exec_of_not_admitted {i : Instr} {s : State} (h : ¬ admitted s.wideEnc32 i = true) :
    exec i s = .refused (.operandNotAdmitted i.op) := by
  rw [exec_eq, if_neg h]

/-- An operation refuses its operand, and nothing else. -/
theorem exec_refused {i : Instr} {s : State} {why : Refusal} (h : exec i s = .refused why) :
    why = .operandNotAdmitted i.op := by
  by_cases ha : admitted s.wideEnc32 i = true
  · rw [exec_of_admitted ha] at h
    cases h
  · rw [exec_of_not_admitted ha] at h
    exact (Host.Outcome.refused.inj h).symm

theorem answer_eq_some {wide : Bool} {i : Instr} {out : Result} :
    answer wide i = some out ↔ admitted wide i = true ∧ out = resultOf i := by
  rw [answer_eq]
  by_cases h : admitted wide i = true
  · simpa [h] using eq_comm
  · simp [h]

theorem reply_eq_some {wide : Bool} {q : Request} {i : Instr} (hd : decode q.raw = .ok i)
    (ha : admitted wide i = true) : q.reply wide = some ⟨q.ticket, i, resultOf i⟩ := by
  simp [Request.reply, hd, answer_eq, ha]

section transact
variable {caller : ℕ} {raw : RawRequest} {s : State}

theorem transact_of_ok {i : Instr} (h : decode raw = .ok i) : s.transact caller raw =
    exec i { s with active := ⟨s.issued, caller⟩, issued := s.issued + 1 } := by
  simp only [State.transact, h]

theorem transact_of_error {why : DecodeError} (h : decode raw = .error why) :
    s.transact caller raw = .refused (.malformedRequest why) := by
  simp only [State.transact, h]

/-- The boundary refuses what is no request, and an operand that is not admitted. -/
theorem issue_refused {why : Refusal} (h : s.issue caller raw = .refused why) :
    (∃ e, decode raw = .error e ∧ why = .malformedRequest e) ∨
    ∃ i, decode raw = .ok i ∧ ¬ admitted s.wideEnc32 i = true ∧ why = .operandNotAdmitted i.op := by
  unfold State.issue boundary at h
  cases hd : decode raw with
  | error e => exact .inl ⟨e, rfl, by simpa [hd] using h.symm⟩
  | ok i =>
    by_cases ha : admitted s.wideEnc32 i = true
    · simp [hd, ha] at h
    · exact .inr ⟨i, rfl, ha, by simpa [hd, ha] using h.symm⟩

/-- A line whose transaction answers binds its variable to the response. -/
theorem runLine_of_transact {l : Line} {c : Caller} {x : Operand} {t : State} (hx : l.arg.operand c.vars = .ok x)
    (ht : c.machine.transact caller ⟨l.op.bits, x⟩ = .next t) :
    runLine caller l c = .next ⟨bindResponse l.dest c.vars t, t⟩ := by
  simp only [runLine, hx, ht]

theorem bindResponse_respond (dest : String) (vars : List (String × Result)) (i : Instr) (out : Result) (s : State) :
    bindResponse dest vars (s.respond i out) = (dest, out) :: vars := by
  simp [bindResponse]

end transact

/-! ### The request a step takes -/

theorem accept_single {s : State} {q : Request} (h : s.requests = [q]) :
    s.accept = some (q, { s with requests := [], active := q.ticket, turn := s.turn + 1 }) := by
  simp [State.accept, h]

/-- A request that an idle block is given is the one taken. -/
theorem accept_enqueue_of_idle {s : State} (h : s.requests = []) (caller : ℕ) (raw : RawRequest) :
    (s.enqueue caller raw).accept = some (⟨⟨s.issued, caller⟩, raw⟩,
      { s with active := ⟨s.issued, caller⟩, issued := s.issued + 1, turn := s.turn + 1 }) := by
  rw [accept_single (q := ⟨⟨s.issued, caller⟩, raw⟩) (by simp [h])]
  simp only [State.enqueue, h]

/-- The index a step takes is the first at a turn of the oldest. -/
theorem accept_index {s : State} (h : s.requests ≠ []) :
    ∃ k, ∃ hk : k < s.requests.length, (turnChoice s.turn = 0 → k = 0) ∧ s.accept = some (s.requests[k],
      { s with requests := s.requests.eraseIdx k, active := s.requests[k].ticket, turn := s.turn + 1 }) := by
  by_cases ht : turnChoice s.turn = 0
  · obtain ⟨q, qs, hq⟩ := List.exists_cons_of_ne_nil h
    exact ⟨0, List.length_pos_iff.mpr h, fun _ => rfl, by simp [accept_oldest hq ht, hq]⟩
  · obtain ⟨k, hk, haccept⟩ := accept_eq_some h
    exact ⟨k, hk, fun h0 => absurd h0 ht, haccept⟩

section accepted
variable {s s' : State} {q : Request} (h : s.accept = some (q, s'))
include h

theorem step_of_accept_ok {i : Instr} (hd : decode q.raw = .ok i) : step s = exec i s' := by
  simp only [step, h, hd]

theorem step_of_accept_error {why : DecodeError} (hd : decode q.raw = .error why) :
    step s = .refused (.malformedRequest why) := by
  simp only [step, h, hd]

end accepted

/-- The state in which the request at an index has been taken and not yet answered. -/
def State.taken (s : State) (k : ℕ) (hk : k < s.requests.length) : State :=
  { s with requests := s.requests.eraseIdx k, active := s.requests[k].ticket, turn := s.turn + 1 }

/-- With requests outstanding a step runs the instruction of one of them, or is refused for that one; at a turn of the
oldest that one is the first. -/
theorem step_takes {s : State} (h : s.requests ≠ []) :
    ∃ k, ∃ hk : k < s.requests.length, (turnChoice s.turn = 0 → k = 0) ∧
      (∀ i, decode s.requests[k].raw = .ok i → step s = exec i (s.taken k hk)) ∧
      ∀ why, decode s.requests[k].raw = .error why → step s = .refused (.malformedRequest why) := by
  obtain ⟨k, hk, hold, haccept⟩ := accept_index h
  exact ⟨k, hk, hold, fun _ => step_of_accept_ok haccept, fun _ => step_of_accept_error haccept⟩

theorem requests_ne_nil_of_step {s t : State} (h : step s = .next t) : s.requests ≠ [] := by
  intro hnil
  rw [step_of_requests_nil hnil] at h
  cases h

/-- A step that answers gives one outstanding request its own reply, and takes it away. -/
theorem step_replies {s t : State} (h : step s = .next t) :
    ∃ k, ∃ hk : k < s.requests.length, (turnChoice s.turn = 0 → k = 0) ∧ ∃ r,
      s.requests[k].reply s.wideEnc32 = some r ∧ t.responses = s.responses ++ [r] ∧
      t.requests = s.requests.eraseIdx k := by
  obtain ⟨k, hk, hold, hok, herror⟩ := step_takes (requests_ne_nil_of_step h)
  refine ⟨k, hk, hold, ?_⟩
  cases hd : decode s.requests[k].raw with
  | error why =>
    rw [herror why hd] at h
    cases h
  | ok i =>
    obtain ⟨ha, rfl⟩ := exec_next_iff.mp ((hok i hd).symm.trans h)
    exact ⟨_, reply_eq_some hd ha, rfl, rfl⟩

/-- Why a step is refused: nothing is outstanding, or the request taken is none, or its operand is not admitted. -/
theorem step_refused_cases {s : State} {why : Refusal} (h : step s = .refused why) :
    (why = .noRequest ∧ s.requests = []) ∨ ∃ q ∈ s.requests,
      (∃ e, decode q.raw = .error e ∧ why = .malformedRequest e) ∨
      ∃ i, decode q.raw = .ok i ∧ why = .operandNotAdmitted i.op := by
  by_cases hne : s.requests = []
  · rw [step_of_requests_nil hne] at h
    exact .inl ⟨(Host.Outcome.refused.inj h).symm, hne⟩
  · obtain ⟨k, hk, _, hok, herror⟩ := step_takes hne
    refine .inr ⟨_, List.getElem_mem hk, ?_⟩
    cases hd : decode s.requests[k].raw with
    | ok i => exact .inr ⟨i, rfl, exec_refused ((hok i hd).symm.trans h)⟩
    | error e => exact .inl ⟨e, rfl, (Host.Outcome.refused.inj ((herror e hd).symm.trans h)).symm⟩

theorem step_turn {s t : State} (h : step s = .next t) : t.turn = s.turn + 1 := by
  obtain ⟨_, _, _, _, _, rfl⟩ := step_next_cases h
  rfl

theorem step_requests_length {s t : State} (h : step s = .next t) : t.requests.length + 1 = s.requests.length := by
  obtain ⟨k, hk, _, _, _, rfl⟩ := step_next_cases h
  exact List.length_eraseIdx_add_one hk

/-! ### The invariant and safety -/

/-- The numbers of the tickets in use: of the outstanding requests and of the responses. -/
abbrev State.ticketIds (s : State) : List ℕ :=
  s.requests.map (·.ticket.id) ++ s.responses.map (·.ticket.id)

/-- A step hands the ticket of a request on to its response. -/
theorem step_ticketIds_perm {s t : State} (h : step s = .next t) : t.ticketIds.Perm s.ticketIds := by
  obtain ⟨k, hk, i, _, _, rfl⟩ := step_next_cases h
  have htaken := (List.getElem_cons_eraseIdx_perm hk).map (·.ticket.id)
  simp only [State.ticketIds, List.map_append, List.map_cons, List.map_nil] at htaken ⊢
  rw [← List.append_assoc]
  exact (List.perm_append_singleton _ _).trans (htaken.append_right _)

theorem step_inv {s t : State} (h : step s = .next t) (hinv : s.Inv) : t.Inv := by
  obtain ⟨hright, hissued, hdistinct⟩ := hinv
  have hperm := step_ticketIds_perm h
  obtain ⟨k, hk, i, _, ha, rfl⟩ := step_next_cases h
  refine ⟨fun r hr => ?_, fun id hid => hissued id (hperm.mem_iff.mp hid), hperm.nodup_iff.mpr hdistinct⟩
  obtain hr | hr := List.mem_append.mp hr
  · exact hright r hr
  · rw [List.mem_singleton.mp hr]
    exact answer_eq_some.mpr ⟨ha, rfl⟩

theorem step_safe {s t : State} (h : step s = .next t) (hsafe : s.Safe) : t.Safe := by
  obtain ⟨k, _, _, _, _, rfl⟩ := step_next_cases h
  exact fun q hq => hsafe q (List.eraseIdx_subset hq)

/-- From a safe state with a request outstanding the step is not refused. -/
theorem step_of_safe {s : State} (hsafe : s.Safe) (hne : s.requests ≠ []) : ∃ t, step s = .next t := by
  obtain ⟨k, hk, _, hok, _⟩ := step_takes hne
  obtain ⟨i, hd, ha⟩ := isDefined_iff.mp (hsafe _ (List.getElem_mem hk))
  exact ⟨_, (hok i hd).trans (exec_of_admitted ha)⟩

section enqueue
variable (caller : ℕ) (raw : RawRequest) {s : State}

theorem enqueue_ticketIds_perm : (s.enqueue caller raw).ticketIds.Perm (s.issued :: s.ticketIds) := by
  simp only [State.ticketIds, enqueue_requests, enqueue_responses, List.map_append, List.map_cons, List.map_nil]
  exact (List.perm_append_singleton _ _).append_right _

/-- The ticket a new request gets is in use nowhere. -/
theorem issued_notMem_ticketIds (hinv : s.Inv) : s.issued ∉ s.ticketIds :=
  fun h => (hinv.tickets_issued _ h).false

theorem enqueue_inv (hinv : s.Inv) : (s.enqueue caller raw).Inv := by
  have hperm := enqueue_ticketIds_perm caller raw (s := s)
  refine ⟨hinv.responses_right, fun id hid => ?_,
    hperm.nodup_iff.mpr (List.nodup_cons.mpr ⟨issued_notMem_ticketIds hinv, hinv.tickets_distinct⟩)⟩
  rw [enqueue_issued]
  obtain rfl | hid := List.mem_cons.mp (hperm.mem_iff.mp hid)
  · exact Nat.lt_succ_self _
  · exact Nat.lt_succ_of_lt (hinv.tickets_issued id hid)

theorem enqueue_safe (hsafe : s.Safe) {i : Instr} (hd : decode raw = .ok i)
    (ha : admitted s.wideEnc32 i = true) : (s.enqueue caller raw).Safe := by
  intro q hq
  obtain hq | hq := List.mem_append.mp hq
  · exact hsafe q hq
  · rw [List.mem_singleton.mp hq]
    exact isDefined_iff.mpr ⟨i, hd, ha⟩

end enqueue

theorem platformReset_inv {s : State} (hinv : s.Inv) : s.platformReset.Inv :=
  ⟨hinv.responses_right, fun id hid => hinv.tickets_issued id (List.mem_append_right _ hid),
    hinv.tickets_distinct.of_append_right⟩

theorem safe_of_requests_nil {s : State} (h : s.requests = []) : s.Safe := by
  simp [State.Safe, h]

end Sys2Proof.Machine

/-!
Fair runs (R165, R183, R189): a request that is outstanding moves towards the head of the line, and the turns at which
the head is taken come again and again.
-/

namespace Sys2Proof.Machine

/-- A request is done with at an event from `s` to `t`: a platform reset abandons it, or a step gives it its reply. -/
def Request.DoneAt (q : Request) (s : State) (e : Event) (t : State) : Prop :=
  e = .platformReset ∨ (e = .step ∧ ∃ r, q.reply s.wideEnc32 = some r ∧ t.responses = s.responses ++ [r])

/-- At every event an outstanding request is done with, or it stays outstanding, at no later place, and at an earlier
one where the step takes the oldest. -/
theorem doneAt_or_moves_up {s t : State} {e : Event} {q : Request} {p : ℕ} (h : s.after e = .next t)
    (hq : s.requests[p]? = some q) : q.DoneAt s e t ∨
      ∃ p' ≤ p, t.requests[p']? = some q ∧ (e = .step → turnChoice s.turn = 0 → p' < p) := by
  cases e with
  | platformReset => exact .inl (.inl rfl)
  | idle =>
    cases h
    exact .inr ⟨p, le_rfl, hq, nofun⟩
  | issue caller raw =>
    obtain ⟨_, rfl⟩ := issue_next_iff.mp h
    have hp : p < s.requests.length := (List.getElem?_eq_some_iff.mp hq).1
    exact .inr ⟨p, le_rfl, by rw [enqueue_requests, List.getElem?_append_left hp, hq], nofun⟩
  | step =>
    obtain ⟨k, hk, hold, r, hr, hresponses, hrequests⟩ := step_replies h
    rw [hrequests]
    obtain hlt | rfl | hgt := lt_trichotomy p k
    · refine .inr ⟨p, le_rfl, by rw [List.getElem?_eraseIdx_of_lt hlt, hq], fun _ h0 => ?_⟩
      have := hold h0
      omega
    · obtain ⟨_, rfl⟩ := List.getElem?_eq_some_iff.mp hq
      exact .inl (.inr ⟨rfl, r, hr, hresponses⟩)
    · refine .inr ⟨p - 1, by omega, ?_, fun _ _ => by omega⟩
      rw [List.getElem?_eraseIdx_of_ge (by omega), Nat.sub_add_cancel (by omega), hq]

/-- Only a step counts the turn on. -/
theorem after_turn {s t : State} {e : Event} (h : s.after e = .next t) (he : e ≠ .step) : t.turn = s.turn := by
  cases e with
  | step => exact absurd rfl he
  | issue => rw [(issue_next_iff.mp h).2, enqueue_turn]
  | platformReset => exact (Host.Outcome.next.inj h) ▸ rfl
  | idle => exact (Host.Outcome.next.inj h) ▸ rfl

section fairRun
variable {state : ℕ → State} {event : ℕ → Event} (hrun : IsFairRun state event)
include hrun

theorem fairRun_wideEnc32 {n m : ℕ} (h : n ≤ m) : (state m).wideEnc32 = (state n).wideEnc32 := by
  induction m, h using Nat.le_induction with
  | base => rfl
  | succ m _ ih => rw [after_wideEnc32 (hrun.next m), ih]

/-- If a step comes later, the first one to come is at the same turn. -/
theorem exists_step_same_turn (d n : ℕ) (h : event (n + d) = .step) :
    ∃ m, n ≤ m ∧ event m = .step ∧ (state m).turn = (state n).turn := by
  induction d generalizing n with
  | zero => exact ⟨n, le_rfl, h, rfl⟩
  | succ d ih =>
    by_cases hn : event n = .step
    · exact ⟨n, le_rfl, hn, rfl⟩
    · obtain ⟨m, hle, hstep, hturn⟩ := ih (n + 1) (by rwa [Nat.add_right_comm])
      exact ⟨m, by omega, hstep, hturn.trans (after_turn (hrun.next n) hn)⟩

variable {n : ℕ} (hbusy : ∀ j, n ≤ j → (state j).requests ≠ [])
include hbusy

/-- While the block is busy a step is always still to come, at the present turn. -/
theorem fairRun_next_step {j : ℕ} (hj : n ≤ j) :
    ∃ m, j ≤ m ∧ event m = .step ∧ (state m).turn = (state j).turn := by
  obtain ⟨m, hm, hstep | hidle⟩ := hrun.fair j
  · exact exists_step_same_turn hrun (m - j) j (by rwa [Nat.add_sub_cancel' hm])
  · exact absurd hidle (hbusy m (hj.trans hm))

/-- While the block is busy every turn comes. -/
theorem fairRun_reaches_turn {j T : ℕ} (hj : n ≤ j) (hT : (state j).turn ≤ T) :
    ∃ m, j ≤ m ∧ event m = .step ∧ (state m).turn = T := by
  induction T, hT using Nat.le_induction with
  | base => exact fairRun_next_step hrun hbusy hj
  | succ T _ ih =>
    obtain ⟨m, hm, hstep, hturn⟩ := ih
    have hnext : step (state m) = .next (state (m + 1)) := by
      have hafter := hrun.next m
      rwa [hstep] at hafter
    obtain ⟨m', hm', hstep', hturn'⟩ := fairRun_next_step hrun hbusy (j := m + 1) (by omega)
    exact ⟨m', by omega, hstep', by rw [hturn', step_turn hnext, hturn]⟩

end fairRun

section neverDone
variable {state : ℕ → State} {event : ℕ → Event} (hrun : IsFairRun state event) {n : ℕ} {q : Request}
  (hnever : ∀ j, n ≤ j → q ∈ (state j).requests → ¬ q.DoneAt (state j) (event j) (state (j + 1)))
include hrun hnever

/-- A request that is never done with keeps its place or moves up. -/
theorem place_le_of_never_done {j m p : ℕ} (hj : n ≤ j) (hq : (state j).requests[p]? = some q) (hm : j ≤ m) :
    ∃ p' ≤ p, (state m).requests[p']? = some q := by
  induction m, hm using Nat.le_induction with
  | base => exact ⟨p, le_rfl, hq⟩
  | succ m hm ih =>
    obtain ⟨p', hp', hq'⟩ := ih
    obtain hdone | ⟨p'', hp'', hq'', _⟩ := doneAt_or_moves_up (hrun.next m) hq'
    · exact absurd hdone (hnever m (hj.trans hm) (List.mem_of_getElem? hq'))
    · exact ⟨p'', hp''.trans hp', hq''⟩

/-- No place is far enough back: at a turn of the oldest the request moves up, and there is always another. -/
theorem not_outstanding_of_never_done (p : ℕ) :
    ∀ j, n ≤ j → (state j).requests[p]? ≠ some q := by
  induction p using Nat.strong_induction_on with
  | _ p ih =>
    intro j hj hq
    have hbusy : ∀ m, j ≤ m → (state m).requests ≠ [] := fun m hm => by
      obtain ⟨_, _, hq'⟩ := place_le_of_never_done hrun hnever hj hq hm
      exact List.ne_nil_of_mem (List.mem_of_getElem? hq')
    obtain ⟨T, hT, hzero⟩ := exists_turnChoice_eq_zero (state j).turn
    obtain ⟨m, hm, hstep, hturn⟩ := fairRun_reaches_turn hrun hbusy le_rfl hT
    obtain ⟨p', hp', hq'⟩ := place_le_of_never_done hrun hnever hj hq hm
    obtain hdone | ⟨p'', _, hq'', hup⟩ := doneAt_or_moves_up (hrun.next m) hq'
    · exact hnever m (hj.trans hm) (List.mem_of_getElem? hq') hdone
    · have := hup hstep (hturn ▸ hzero)
      exact ih p'' (by omega) (m + 1) (by omega) hq''

end neverDone

/-- In a fair run an outstanding request stays outstanding until it is done with. -/
theorem fairRun_done {state : ℕ → State} {event : ℕ → Event} (hrun : IsFairRun state event) {n : ℕ}
    {q : Request} (hq : q ∈ (state n).requests) : ∃ m, n ≤ m ∧ (∀ j, n ≤ j → j ≤ m → q ∈ (state j).requests) ∧
      q.DoneAt (state m) (event m) (state (m + 1)) := by
  by_contra hnone
  push Not at hnone
  have hstays : ∀ j, n ≤ j → ∀ i, n ≤ i → i ≤ j → q ∈ (state i).requests := by
    intro j hj
    induction j, hj using Nat.le_induction with
    | base =>
      intro i hi hi'
      rwa [le_antisymm hi' hi]
    | succ j hj ih =>
      intro i hi hi'
      obtain hi' | rfl := Nat.le_succ_iff.mp hi'
      · exact ih i hi hi'
      · obtain ⟨p, hp⟩ := List.mem_iff_getElem?.mp (ih j hj le_rfl)
        obtain hdone | ⟨_, _, hp', _⟩ := doneAt_or_moves_up (hrun.next j) hp
        · exact absurd hdone (hnone j hj ih)
        · exact List.mem_of_getElem? hp'
  obtain ⟨p, hp⟩ := List.mem_iff_getElem?.mp hq
  exact not_outstanding_of_never_done hrun (fun j hj _ => hnone j hj (hstays j hj)) p n le_rfl hp

end Sys2Proof.Machine

/-!
The values of the two formats in each other's terms (R26), and the trip of a binary32 value through binary64 (R103).
-/

namespace Sys2Proof.Machine

/-- R26: what the fields below the all-ones exponent decode to is finite, and every finite value is such. -/
theorem inValueSet_fin_iff_decodes {fmt : Fmt} {s : Sign} {a : ℚ} : inValueSet fmt (.fin s a) = true ↔
    ∃ b : Bytes fmt.NB, (unpack fmt (word fmt b)).E < fmt.emaxField ∧ decodeValue fmt b = .fin s a := by
  constructor
  · intro h
    obtain ⟨f, hE, hF, hf⟩ := exists_fields_of_value h rfl
    have hfin : f.E ≠ fmt.emaxField := by
      intro hmax
      simp only [decodeFields_eq, hmax, (emaxField_pos fmt).ne', if_true, if_false] at hf
      split at hf <;> cases hf
    refine ⟨bytes fmt (pack fmt f), ?_, ?_⟩
    · rw [word_bytes, unpack_pack fmt hE hF]
      exact lt_of_le_of_ne hE hfin
    · rw [decodeValue, word_bytes, unpack_pack fmt hE hF, hf]
  · rintro ⟨b, _, hb⟩
    exact hb ▸ inValueSet_decodeValue fmt b

/-- R26: a significand and a scale of binary32 are ones of binary64. -/
theorem inValueSet_binary64_of_binary32 {v : NumVal} (h : inValueSet .binary32 v = true) :
    inValueSet .binary64 v = true := by
  cases v with
  | zero | inf | nan => rfl
  | fin s a =>
    obtain ⟨M, q, hpos, hM, hq, hq', ha⟩ := isMagnitudeOf_iff.mp h
    refine isMagnitudeOf_iff.mpr ⟨M, q, hpos, hM.trans (by decide), ?_, ?_, ha⟩
    · exact le_trans (by decide) hq
    · exact hq'.trans (by decide)

/-- R132: decoded bytes survive a trip through the encoding of any format that has their value, NaNs included. -/
theorem decodeValue_encodeValue_decodeValue {fmt fmt' : Fmt} {b : Bytes fmt.NB}
    (h : inValueSet fmt' (decodeValue fmt b) = true) :
    decodeValue fmt' (encodeValue fmt' (decodeValue fmt b)) = decodeValue fmt b := by
  by_cases hn : (decodeValue fmt b).isNaN = true
  · have hcanon : decodeValue fmt b = .nan _ Config.canonPayload := (decodeFields_isNaN hn).2
    rw [hcanon, decodeValue_encodeValue_nan]
  · exact decodeValue_encodeValue h (Bool.eq_false_iff.mpr hn)

end Sys2Proof.Machine

/-!
The statements of 10_state.md.
-/

namespace Sys2Proof.Machine

/-- Settles O39: a step passes a ticket on from a request to its response, which is the right one. -/
theorem stepKeepsInvariant : Obligations.StepKeepsInvariant :=
  fun _ _ h => ⟨step_inv h, step_safe h⟩

/-- Settles O2: the decoder reads the operation and the operand that the encoder writes. -/
theorem decodeEncodeAgree : Obligations.DecodeEncodeAgree :=
  fun _ _ => decode_eq_ok_iff

/-- Settles O11: the finite part of a value set is the rule's form with the numbers of the format. -/
theorem valueSets : Obligations.ValueSets := by
  refine ⟨fun v => ?_, fun v => ?_, fun _ _ _ => inValueSet_fin_iff_decodes,
    fun _ => inValueSet_binary64_of_binary32⟩
  · cases v with
    | zero | inf | nan => simp [inValueSet]
    | fin s a => exact isMagnitudeOf_iff
  · cases v with
    | zero | inf | nan => simp [inValueSet]
    | fin s a => exact isMagnitudeOf_iff

/-- Settles O26: the fields of a word are in range, and what such fields decode to is a value of the format. -/
theorem decodersStayInValueSet : Obligations.DecodersStayInValueSet :=
  inValueSet_decodeValue

/-- Settles O30: a binary32 value is a binary64 value, so either encoder takes it and either decoder gives it back. -/
theorem wideningIsExact : Obligations.WideningIsExact := by
  intro b st
  have h32 := inValueSet_decodeValue .binary32 b
  have h64 := inValueSet_binary64_of_binary32 h32
  have htrip := decodeValue_encodeValue_decodeValue h64
  refine ⟨exec_of_admitted h64, htrip, fun hn => ?_⟩
  have hadmitted : admitted st.wideEnc32 (.enc32 (decodeValue .binary32 b)) = true := by
    simp [admitted, admittedEnc32, h32]
  rw [htrip, exec_of_admitted hadmitted, resultOf, encodeValue_decodeValue hn]

/-- Settles O35: what a step that answers can have done, with the answer an admitted instruction gets alone. -/
theorem frameOfStep : Obligations.FrameOfStep := by
  intro st t h
  obtain ⟨k, hk, i, hd, ha, rfl⟩ := step_next_cases h
  exact ⟨k, hk, i, resultOf i, hd, answer_eq_some.mpr ⟨ha, rfl⟩, rfl, rfl, rfl, rfl, rfl, rfl⟩

/-- Settles O36: the result is a function of the instruction, and admission one of it and the parameter. -/
theorem responseDependsOnRequestAlone : Obligations.ResponseDependsOnRequestAlone := by
  refine ⟨fun i st st' hwide => ?_, fun i st st' t t' h h' => ?_⟩
  · by_cases ha : admitted st.wideEnc32 i = true
    · exact .inl ⟨resultOf i, exec_of_admitted ha, exec_of_admitted (hwide ▸ ha)⟩
    · exact .inr ⟨_, exec_of_not_admitted ha, exec_of_not_admitted (hwide ▸ ha)⟩
  · exact ⟨resultOf i, (exec_next_iff.mp h).2, (exec_next_iff.mp h').2⟩

/-- Settles O40: a new request takes a ticket that is in use nowhere, and a reset drops requests only. -/
theorem outsideKeepsInvariant : Obligations.OutsideKeepsInvariant := by
  refine ⟨fun st caller raw => ?_, fun st t caller raw h => ?_, fun st => ?_⟩
  · exact ⟨fun ⟨_, h⟩ => (issue_next_iff.mp h).1, fun h => ⟨_, issue_next_iff.mpr ⟨h, rfl⟩⟩⟩
  · obtain ⟨⟨i, hd, ha⟩, rfl⟩ := issue_next_iff.mp h
    refine ⟨fun hinv => ⟨enqueue_inv caller raw hinv, fun q hq hid => ?_⟩,
      fun hsafe => enqueue_safe caller raw hsafe hd ha, rfl, rfl, rfl, rfl, rfl, rfl⟩
    exact issued_notMem_ticketIds hinv (hid ▸ List.mem_append_left _ (List.mem_map_of_mem hq))
  · exact ⟨platformReset_inv, safe_of_requests_nil rfl, rfl, rfl, rfl, rfl, rfl, rfl⟩

/-- Settles O42: whichever request the step takes is a defined one, so it is answered. -/
theorem safeStatesProgress : Obligations.SafeStatesProgress := by
  intro st hsafe hne
  obtain ⟨t, ht⟩ := step_of_safe hsafe hne
  exact ⟨t, ht, step_safe ht hsafe, step_requests_length ht⟩

/-- Settles O45: the step takes the one request just issued, with the ticket the transaction gives it. -/
theorem linesAreTransactions : Obligations.LinesAreTransactions := by
  refine ⟨fun st t caller raw hidle h => ?_, fun st caller raw why h => ?_, fun c caller l x i out hx hd hout => ?_⟩
  · obtain ⟨⟨i, hd, _⟩, rfl⟩ := issue_next_iff.mp h
    rw [step_of_accept_ok (accept_enqueue_of_idle hidle caller raw) hd, transact_of_ok hd]
  · obtain ⟨e, hd, rfl⟩ | ⟨i, hd, ha, rfl⟩ := issue_refused h
    · exact transact_of_error hd
    · exact (transact_of_ok hd).trans (exec_of_not_admitted ha)
  · obtain ⟨ha, rfl⟩ := answer_eq_some.mp hout
    exact ⟨_, (runLine_of_transact hx ((transact_of_ok hd).trans (exec_of_admitted ha))).trans
      (by rw [bindResponse_respond]), rfl⟩

/-- Settles O47: a request never done with would move up at every turn of the oldest. -/
theorem everyRequestIsEventuallyAnswered : Obligations.EveryRequestIsEventuallyAnswered := by
  intro state event hrun n q hq
  obtain ⟨m, hm, hstays, hdone⟩ := fairRun_done hrun hq
  rw [Request.DoneAt, fairRun_wideEnc32 hrun hm] at hdone
  exact ⟨m, hm, hstays, hdone⟩

/-- Settles O32: of the requests outstanding a step takes one, and it takes the only one. -/
theorem stepRunsTheDecodedRequest : Obligations.StepRunsTheDecodedRequest := by
  refine ⟨fun st hne => ?_, fun st tk i hwf hreq => ?_, fun st nbits w i hw => ?_⟩
  · obtain ⟨k, hk, _, htaken⟩ := step_takes hne
    exact ⟨k, hk, htaken⟩
  · exact step_of_accept_ok (accept_single hreq) (decode_encode hwf)
  · have haccept := accept_enqueue_of_idle (s := st.platformReset) rfl 0 (rawOfTableWord nbits w)
    exact step_of_accept_ok haccept (decodeTableWord_eq_some.mp hw)

/-- Settles O33: a step is refused with nothing outstanding, or for the request it takes. -/
theorem stepsThatAnswerNothing : Obligations.StepsThatAnswerNothing := by
  refine ⟨fun st => ⟨fun h => ?_, step_of_requests_nil⟩,
    fun st q why hreq hd => step_of_accept_error (accept_single hreq) hd, fun st hne hall => ?_, fun st why h => ?_⟩
  · obtain ⟨_, hnil⟩ | ⟨q, _, ⟨e, _, hwhy⟩ | ⟨i, _, hwhy⟩⟩ := step_refused_cases h
    · exact hnil
    · cases hwhy
    · cases hwhy
  · obtain ⟨k, hk, _, _, herror⟩ := step_takes hne
    obtain ⟨why, hd⟩ := hall _ (List.getElem_mem hk)
    exact ⟨why, herror why hd⟩
  · obtain ⟨hwhy, _⟩ | ⟨q, hq, ⟨e, hd, hwhy⟩ | ⟨i, _, hwhy⟩⟩ := step_refused_cases h
    · cases hwhy
    · exact ⟨q, hq, Refusal.malformedRequest.inj hwhy ▸ hd⟩
    · cases hwhy

/-- Settles O34: every operation that answers does nothing but respond. -/
theorem frameOfOperations : Obligations.FrameOfOperations := by
  intro i st t h
  obtain ⟨_, rfl⟩ := exec_next_iff.mp h
  refine ⟨rfl, rfl, rfl, rfl, rfl, ?_⟩
  cases i <;> rfl

/-- Settles O38: after reset there is no request, no response and no ticket. -/
theorem resetMeetsInvariant : Obligations.ResetMeetsInvariant :=
  ⟨⟨nofun, nofun, List.nodup_nil⟩, safe_of_requests_nil reset_requests⟩

end Sys2Proof.Machine

/-!
What the statements of 20_memory.md turn on: the encodings of 1.0 in the two widths (R45), the cells of a caller's
buffer (R42), and a safe run to its end (R50).
-/

namespace Sys2Proof.Machine

/-! ### One point zero -/

theorem decodeFields_one (fmt : Fmt) (s : Sign) : decodeFields fmt ⟨s, fmt.bias, 0⟩ = .fin s 1 := by
  cases fmt <;> simp [decodeFields_eq, Fmt.bias, Fmt.emaxField, Fmt.W]

theorem bias_le_emaxField (fmt : Fmt) : fmt.bias ≤ fmt.emaxField := by
  rw [emaxField_eq_two_bias]
  omega

theorem inValueSet_one (fmt : Fmt) (s : Sign) : inValueSet fmt (.fin s 1) = true := by
  rw [← decodeFields_one fmt s]
  exact inValueSet_decodeFields (bias_le_emaxField fmt) (Nat.two_pow_pos _)

theorem encodeFields_one (fmt : Fmt) (s : Sign) : encodeFields fmt (.fin s 1) = ⟨s, fmt.bias, 0⟩ := by
  have hdec := decodeFields_one fmt s
  rw [← hdec, encodeFields_decodeFields (bias_le_emaxField fmt) (Nat.two_pow_pos _) (by rw [hdec]; rfl)]

theorem encodeValue_binary32_one : encodeValue .binary32 (.fin .plus 1) = #v[0x3F, 0x80, 0, 0] := by
  rw [encodeValue, encodeFields_one]
  rfl

theorem encodeValue_binary64_one :
    encodeValue .binary64 (.fin .plus 1) = #v[0x3F, 0xF0, 0, 0, 0, 0, 0, 0] := by
  rw [encodeValue, encodeFields_one]
  rfl

/-- R132: the only bytes that decode to a value that is no NaN are its encoding. -/
theorem eq_encodeValue_of_decodeValue {fmt : Fmt} {b : Bytes fmt.NB} {v : NumVal} (h : decodeValue fmt b = v)
    (hn : v.isNaN = false) : b = encodeValue fmt v := by
  subst h
  refine (encodeValue_decodeValue fun hnan => ?_).symm
  simp [decodeValue, decodeFields, hnan] at hn

/-! ### Buffers -/

/-- Looking up the key of an element in a table with one key for each finds what stands beside that key. -/
theorem lookup_map_of_mem {ι κ β : Type} [BEq κ] [LawfulBEq κ] {key : ι → κ} (hkey : key.Injective)
    (val : ι → β) {l : List ι} {k : ι} (hk : k ∈ l) :
    (l.map fun j => (key j, val j)).lookup (key k) = some (val k) := by
  induction l with
  | nil => cases hk
  | cons j js ih =>
    by_cases hj : k = j
    · simp [hj]
    · have hne : (key k == key j) = false := beq_false_of_ne (hkey.ne hj)
      simpa [List.lookup_cons, hne] using ih ((List.mem_cons.mp hk).resolve_left hj)

theorem lookup_bufferCells {n : ℕ} (addr : ℕ) (b : Bytes n) (k : Fin n) :
    (bufferCells addr b).lookup (addr + k.val) = some b[k] :=
  lookup_map_of_mem (key := fun j : Fin n => addr + j.val)
    (fun _ _ h => Fin.ext (Nat.add_left_cancel h)) (fun j => b[j]) (List.mem_finRange k)

theorem holdsBuffer_iff {n : ℕ} {mem : List Host.Cell} {addr : ℕ} {b : Bytes n} :
    holdsBuffer mem addr b = true ↔ ∀ k : Fin n, mem.lookup (addr + k.val) = some b[k] := by
  simp [holdsBuffer]

/-! ### A run to the end -/

theorem core_run_succ {s t : State} (h : step s = .next t) (n : ℕ) : core.run (n + 1) s = core.run n t := by
  have hstep : core.step s = .next t := h
  simp only [Host.Core.run, hstep]

theorem step_wideEnc32 {s t : State} (h : step s = .next t) : t.wideEnc32 = s.wideEnc32 :=
  after_wideEnc32 (e := .step) h

/-- A run of as many steps as requests are outstanding in a safe state gives each of them its own reply: the first step
replies to one, and the rest of the run to the others. -/
theorem core_run_of_safe {n : ℕ} {s : State} (hsafe : s.Safe) (hlen : s.requests.length = n) :
    ∃ (t : State) (replies : List Response), core.run n s = .next t ∧ t.requests = [] ∧
      t.responses = s.responses ++ replies ∧ (replies.map some).Perm (s.requests.map (Request.reply s.wideEnc32)) := by
  induction n generalizing s with
  | zero =>
    have hnil := List.eq_nil_of_length_eq_zero hlen
    exact ⟨s, [], rfl, hnil, by simp, by simp [hnil]⟩
  | succ n ih =>
    obtain ⟨u, hu⟩ := step_of_safe hsafe (List.ne_nil_of_length_eq_add_one hlen)
    have hlen' := step_requests_length hu
    obtain ⟨t, replies, hrun, hdone, hresponses, hperm⟩ := ih (step_safe hu hsafe) (by omega)
    obtain ⟨k, hk, _, r, hr, hur, huq⟩ := step_replies hu
    refine ⟨t, r :: replies, (core_run_succ hu n).trans hrun, hdone, by simp [hresponses, hur], ?_⟩
    rw [step_wideEnc32 hu, huq] at hperm
    have htaken := (List.getElem_cons_eraseIdx_perm hk).map (Request.reply s.wideEnc32)
    rw [List.map_cons, hr] at htaken
    exact (hperm.cons (some r)).trans htaken

end Sys2Proof.Machine

/-!
The statements of 20_memory.md.
-/

namespace Sys2Proof.Machine

/-- Settles O43: every step gives one request its own reply, and none is given twice. -/
theorem everyRequestIsAnswered : Obligations.EveryRequestIsAnswered :=
  fun _ hsafe => core_run_of_safe hsafe rfl

/-- Settles O44: both runs give the replies of the requests in some order, and a reply depends on its request and the
parameter alone. -/
theorem orderOfRequestsDoesNotMatter : Obligations.OrderOfRequestsDoesNotMatter := by
  intro st st' hsafe hperm hresponses hwide
  have hsafe' : st'.Safe := fun q hq => hwide ▸ hsafe q (hperm.mem_iff.mpr hq)
  obtain ⟨t, replies, hrun, _, ht, hreplies⟩ := core_run_of_safe hsafe rfl
  obtain ⟨t', replies', hrun', _, ht', hreplies'⟩ := core_run_of_safe hsafe' rfl
  refine ⟨t, t', hrun, hrun', ?_⟩
  have hsome : (replies.map some).Perm (replies'.map some) :=
    calc (replies.map some).Perm (st.requests.map (Request.reply st.wideEnc32)) := hreplies
      List.Perm _ (st'.requests.map (Request.reply st'.wideEnc32)) := hwide ▸ hperm.map _
      List.Perm _ (replies'.map some) := hreplies'.symm
  rw [ht, ht', hresponses]
  exact ((List.map_perm_map_iff (Option.some_injective _)).mp hsome).append_left _

/-- Settles O9: the two encodings differ in their second byte, and no bytes but its encoding decode to 1.0. -/
theorem widthsDoNotMix : Obligations.WidthsDoNotMix := by
  refine ⟨fun st => ?_, fun st => ?_, ?_, fun b _ h1 _ _ hdec => ?_⟩
  · have h32 : admitted st.wideEnc32 (.enc32 (.fin .plus 1)) = true := by
      simp [admitted, admittedEnc32, inValueSet_one]
    rw [exec_of_admitted h32, resultOf, encodeValue_binary32_one]
  · have h64 : admitted st.wideEnc32 (.enc64 (.fin .plus 1)) = true := inValueSet_one .binary64 .plus
    rw [exec_of_admitted h64, resultOf, encodeValue_binary64_one]
  · rw [encodeValue_binary32_one, encodeValue_binary64_one]
    decide
  · rw [← encodeValue_binary32_one, decodeValue_encodeValue (inValueSet_one _ _) rfl] at hdec
    rw [eq_encodeValue_of_decodeValue hdec rfl, encodeValue_binary64_one] at h1
    exact absurd h1 (by decide)

/-- Settles O46: the cells of a buffer have an address each, so looking one up finds its own byte. -/
theorem callerBuffers : Obligations.CallerBuffers := by
  refine ⟨fun n addr b rest => holdsBuffer_iff.mpr fun k => ?_, fun _ _ _ _ => holdsBuffer_iff⟩
  rw [List.lookup_append, lookup_bufferCells, Option.some_or]

end Sys2Proof.Machine

/-!
Words by their bits and their classes: the fields and the bytes of a word are bits of it (R61 to R64), and each class is a
rectangle of exponent and fraction fields (R66), so that its words can be counted (R67).
-/

namespace Sys2Proof.Machine

/-! ### Fields and bytes, bit by bit -/

theorem ofBit_testBit (n i : ℕ) : Sign.ofBit (n / 2 ^ i % 2) = if n.testBit i then .minus else .plus := by
  rw [Nat.testBit_eq_decide_div_mod_eq]
  rcases Nat.mod_two_eq_zero_or_one (n / 2 ^ i) with h | h <;> simp [h, Sign.ofBit]

/-- R61, R62: the fields of a word as bits of it. -/
theorem unpack_eq_bits (fmt : Fmt) (w : Word fmt) : unpack fmt w =
    { s := if w.getLsbD (fmt.N - 1) then .minus else .plus
      E := (w.extractLsb (fmt.N - 2) fmt.T).toNat
      F := (w.extractLsb (fmt.T - 1) 0).toNat } := by
  have hs : Sign.ofBit (slice w.toNat (fmt.N - 1) (fmt.N - 1)) =
      if w.getLsbD (fmt.N - 1) then .minus else .plus := by
    rw [slice, Nat.sub_self]
    exact ofBit_testBit _ _
  rw [unpack, hs]
  simp only [slice, BitVec.extractLsb_toNat, Nat.shiftRight_eq_div_pow]

/-- R64: byte `k` counts from the top of the word, and bit `j` from the bottom of the byte. -/
theorem bytes_getLsbD (fmt : Fmt) (w : Word fmt) {k j : ℕ} (hk : k < fmt.NB) (hj : j < 8) :
    (bytes fmt w)[k].getLsbD j = w.getLsbD (fmt.N - 8 - 8 * k + j) := by
  have hbyte : (256 : ℕ) = 2 ^ 8 := rfl
  rw [← BitVec.testBit_toNat, bytes_getElem_toNat fmt w hk, ← two_pow_place, hbyte, Nat.testBit_mod_two_pow,
    Nat.testBit_div_two_pow, BitVec.testBit_toNat]
  simp [hj, add_comm]

/-! ### Classes -/

/-- The exponent fields of a class (R66). -/
def classExponents (fmt : Fmt) : ValueClass → Finset ℕ
  | .zero | .subnormal => {0}
  | .infinite | .nan => {fmt.emaxField}
  | .normal => Finset.Icc 1 fmt.emaxFin

/-- The fraction fields of a class (R66). -/
def classFractions (fmt : Fmt) : ValueClass → Finset ℕ
  | .zero | .infinite => {0}
  | .subnormal | .nan => Finset.Ico 1 (2 ^ fmt.T)
  | .normal => Finset.range (2 ^ fmt.T)

theorem wordClass_mem {fmt : Fmt} {f : Fields} (hE : f.E ≤ fmt.emaxField) (hF : f.F < 2 ^ fmt.T) :
    f.E ∈ classExponents fmt (wordClass fmt f) ∧ f.F ∈ classFractions fmt (wordClass fmt f) := by
  have hmax := emaxField_eq_succ_emaxFin fmt
  unfold wordClass
  split_ifs <;> simp [classExponents, classFractions] <;> omega

theorem wordClass_of_mem {fmt : Fmt} {f : Fields} {c : ValueClass} (hE : f.E ∈ classExponents fmt c)
    (hF : f.F ∈ classFractions fmt c) : wordClass fmt f = c := by
  have hpos := emaxField_pos fmt
  have hmax := emaxField_eq_succ_emaxFin fmt
  cases c <;> simp only [classExponents, classFractions, Finset.mem_singleton, Finset.mem_Icc, Finset.mem_Ico] at hE hF
  case zero => simp [wordClass, hE, hF]
  case subnormal => simp [wordClass, hE, show f.F ≠ 0 by omega]
  case normal => simp [wordClass, show f.E ≠ 0 by omega, show f.E ≠ fmt.emaxField by omega]
  case infinite => simp [wordClass, hE, hF, hpos.ne']
  case nan => simp [wordClass, hE, hpos.ne', show f.F ≠ 0 by omega]

/-- R66: on fields in range a class is a rectangle of exponent and fraction fields. -/
theorem wordClass_eq_iff {fmt : Fmt} {f : Fields} (hE : f.E ≤ fmt.emaxField) (hF : f.F < 2 ^ fmt.T) (c : ValueClass) :
    wordClass fmt f = c ↔ f.E ∈ classExponents fmt c ∧ f.F ∈ classFractions fmt c :=
  ⟨fun h => h ▸ wordClass_mem hE hF, fun ⟨hE', hF'⟩ => wordClass_of_mem hE' hF'⟩

theorem wordClass_eq_nan {fmt : Fmt} {f : Fields} : wordClass fmt f = .nan ↔ f.E = fmt.emaxField ∧ f.F ≠ 0 := by
  have hpos := emaxField_pos fmt
  unfold wordClass
  split_ifs <;> simp <;> omega

theorem classExponents_le {fmt : Fmt} {c : ValueClass} {E : ℕ} (h : E ∈ classExponents fmt c) : E ≤ fmt.emaxField := by
  have hmax := emaxField_eq_succ_emaxFin fmt
  cases c <;> simp [classExponents] at h <;> omega

theorem classFractions_lt {fmt : Fmt} {c : ValueClass} {F : ℕ} (h : F ∈ classFractions fmt c) : F < 2 ^ fmt.T := by
  have hpos := Nat.two_pow_pos fmt.T
  cases c <;> simp [classFractions] at h <;> omega

/-! ### Counting words -/

/-- The word of a sign with an exponent and a fraction field. -/
def signedWord (fmt : Fmt) (s : Sign) (p : ℕ × ℕ) : Word fmt := pack fmt ⟨s, p.1, p.2⟩

/-- The words of a sign whose exponent and fraction fields lie in given sets are as many as the pairs of such fields. -/
theorem card_words (fmt : Fmt) (s : Sign) {A B : Finset ℕ} (hA : ∀ E ∈ A, E ≤ fmt.emaxField)
    (hB : ∀ F ∈ B, F < 2 ^ fmt.T) :
    Nat.card { w : Word fmt // (unpack fmt w).s = s ∧ (unpack fmt w).E ∈ A ∧ (unpack fmt w).F ∈ B } =
      A.card * B.card := by
  have hunpack : ∀ p ∈ A ×ˢ B, unpack fmt (signedWord fmt s p) = ⟨s, p.1, p.2⟩ := fun p hp =>
    unpack_pack fmt (hA _ (Finset.mem_product.mp hp).1) (hB _ (Finset.mem_product.mp hp).2)
  have himage : { w | (unpack fmt w).s = s ∧ (unpack fmt w).E ∈ A ∧ (unpack fmt w).F ∈ B } =
      signedWord fmt s '' (A ×ˢ B : Finset (ℕ × ℕ)) := by
    ext w
    constructor
    · rintro ⟨rfl, hE, hF⟩
      exact ⟨(_, _), Finset.mem_product.mpr ⟨hE, hF⟩, pack_unpack fmt w⟩
    · rintro ⟨p, hp, rfl⟩
      simpa [hunpack p hp] using Finset.mem_product.mp hp
  have hinj : Set.InjOn (signedWord fmt s) (A ×ˢ B : Finset (ℕ × ℕ)) := by
    intro p hp q hq hpq
    obtain ⟨-, hE, hF⟩ := Fields.mk.inj ((hunpack p hp).symm.trans (hpq ▸ hunpack q hq))
    exact Prod.ext hE hF
  calc Nat.card { w : Word fmt // (unpack fmt w).s = s ∧ (unpack fmt w).E ∈ A ∧ (unpack fmt w).F ∈ B }
    _ = (signedWord fmt s '' (A ×ˢ B : Finset (ℕ × ℕ))).ncard := by
      rw [← himage]
      exact Nat.card_coe_set_eq _
    _ = A.card * B.card := by rw [hinj.ncard_image, Set.ncard_coe_finset, Finset.card_product]

/-- R67: the words of a sign in a class. -/
theorem card_wordClass (fmt : Fmt) (s : Sign) (c : ValueClass) :
    Nat.card { w : Word fmt // (unpack fmt w).s = s ∧ wordClass fmt (unpack fmt w) = c } =
      (classExponents fmt c).card * (classFractions fmt c).card := by
  rw [← card_words fmt s (fun _ => classExponents_le) (fun _ => classFractions_lt)]
  refine Nat.card_congr (Equiv.subtypeEquivRight fun w => and_congr_right fun _ => ?_)
  obtain ⟨hE, hF⟩ := unpack_ranges fmt w
  exact wordClass_eq_iff hE hF c

theorem card_sign (fmt : Fmt) (s : Sign) :
    Nat.card { w : Word fmt // (unpack fmt w).s = s } = (fmt.emaxField + 1) * 2 ^ fmt.T := by
  have h := card_words fmt s (A := Finset.range (fmt.emaxField + 1)) (B := Finset.range (2 ^ fmt.T))
    (fun E hE => Nat.lt_succ_iff.mp (Finset.mem_range.mp hE)) (fun F => Finset.mem_range.mp)
  rw [Finset.card_range, Finset.card_range] at h
  rw [← h]
  refine Nat.card_congr (Equiv.subtypeEquivRight fun w => ?_)
  obtain ⟨hE, hF⟩ := unpack_ranges fmt w
  simp [hF, Nat.lt_succ_iff.mpr hE]

/-- R67: the words of a sign in each class, and all of them. -/
theorem card_words_by_class (fmt : Fmt) (s : Sign) :
    Nat.card { w : Word fmt // (unpack fmt w).s = s ∧ wordClass fmt (unpack fmt w) = .zero } = 1 ∧
    Nat.card { w : Word fmt // (unpack fmt w).s = s ∧ wordClass fmt (unpack fmt w) = .subnormal } = 2 ^ fmt.T - 1 ∧
    Nat.card { w : Word fmt // (unpack fmt w).s = s ∧ wordClass fmt (unpack fmt w) = .normal } =
      fmt.emaxFin * 2 ^ fmt.T ∧
    Nat.card { w : Word fmt // (unpack fmt w).s = s ∧ wordClass fmt (unpack fmt w) = .infinite } = 1 ∧
    Nat.card { w : Word fmt // (unpack fmt w).s = s ∧ wordClass fmt (unpack fmt w) = .nan } = 2 ^ fmt.T - 1 ∧
    Nat.card { w : Word fmt // (unpack fmt w).s = s } = (fmt.emaxField + 1) * 2 ^ fmt.T := by
  simp [-Nat.card_eq_fintype_card, card_wordClass, card_sign, classExponents, classFractions]

end Sys2Proof.Machine

/-!
What the encoders output: fields of the class of the value (R93, R103), always in range (R100), NaN words for NaNs
alone (R73), and an answer for every admitted operand (R72).
-/

namespace Sys2Proof.Machine

/-! ### The class of a value and of its fields -/

theorem subnormal_magnitude_lt {fmt : Fmt} {F : ℕ} (hF : F < 2 ^ fmt.T) : (F : ℚ) * 2 ^ fmt.subExp < 2 ^ fmt.emin := by
  rw [← two_pow_T_mul_subExp]
  gcongr
  exact_mod_cast hF

theorem le_normal_magnitude (fmt : Fmt) {E : ℕ} (hE : 1 ≤ E) (F : ℕ) :
    (2 : ℚ) ^ fmt.emin ≤ (2 ^ fmt.T + F : ℕ) * 2 ^ (fmt.subExp + (E - 1)) := by
  rw [← two_pow_T_mul_subExp]
  gcongr
  · exact_mod_cast Nat.le_add_right ..
  · norm_num
  · omega

/-- R93: what fields in range decode to is, as an encoder input, of the class of the fields. -/
theorem magnitudeClass_decodeFields {fmt : Fmt} {f : Fields} (hE : f.E ≤ fmt.emaxField) (hF : f.F < 2 ^ fmt.T) :
    magnitudeClass fmt (decodeFields fmt f) = wordClass fmt f := by
  obtain ⟨s, E, F⟩ := f
  dsimp only at hE hF
  cases hc : wordClass fmt ⟨s, E, F⟩ with
  | zero | infinite | nan => simp [decodeFields, hc, magnitudeClass]
  | subnormal =>
    simp [decodeFields, hc, magnitudeClass, subnormalMagnitude, pow2_eq_zpow, subnormal_magnitude_lt hF]
  | normal =>
    obtain ⟨hE1, hE2⟩ := Finset.mem_Icc.mp ((wordClass_eq_iff hE hF .normal).mp hc).1
    have hfin : E < fmt.emaxField := emaxField_eq_succ_emaxFin fmt ▸ Nat.lt_succ_of_le hE2
    rw [decodeFields_normal fmt s hE1 hfin]
    simp only [magnitudeClass, pow2_eq_zpow, if_neg (le_normal_magnitude fmt hE1 F).not_gt]

theorem isNaN_iff {v : NumVal} : v.isNaN = true ↔ ∃ s pl, v = .nan s pl := by
  cases v <;> simp

/-- R93, R103: a value of a format has fields of its class. -/
theorem wordClass_encodeFields {fmt : Fmt} {v : NumVal} (hv : inValueSet fmt v = true) :
    wordClass fmt (encodeFields fmt v) = magnitudeClass fmt v := by
  cases hn : v.isNaN with
  | true =>
    obtain ⟨s, pl, rfl⟩ := isNaN_iff.mp hn
    simp [wordClass, magnitudeClass, (emaxField_pos fmt).ne']
  | false =>
    obtain ⟨hE, hF, hdec⟩ := encodeFields_of_value hv hn
    rw [← magnitudeClass_decodeFields hE hF, hdec]

theorem magnitudeClass_eq_nan {fmt : Fmt} {v : NumVal} : magnitudeClass fmt v = .nan ↔ v.isNaN = true := by
  cases v with
  | zero | inf | nan => simp [magnitudeClass]
  | fin s a => by_cases h : a < pow2 fmt.emin <;> simp [magnitudeClass, h]

/-- R93: a finite value is subnormal or normal as it lies below the smallest normal magnitude or not. -/
theorem magnitudeClass_fin_iff (fmt : Fmt) {s : Sign} {a : ℚ} :
    (magnitudeClass fmt (.fin s a) = .subnormal ↔ a < 2 ^ fmt.emin) ∧
    (magnitudeClass fmt (.fin s a) = .normal ↔ 2 ^ fmt.emin ≤ a) := by
  rw [magnitudeClass, pow2_eq_zpow, ← not_lt]
  by_cases h : a < 2 ^ fmt.emin <;> simp [h]

/-! ### The ranges of the encoders -/

theorem clampFields_F_le (fmt : Fmt) (f : Fields) : (clampFields fmt f).F ≤ f.F := by
  by_cases h : f.E ≤ fmt.emaxFin
  · rw [clampFields_of_le fmt h]
  · cases fmt with
    | binary64 => exact le_rfl
    | binary32 => simp [clampFields_of_lt (Nat.lt_of_not_le h)]

theorem clampFields_binary32_E_le (f : Fields) : (clampFields .binary32 f).E ≤ Fmt.emaxField .binary32 := by
  by_cases h : f.E ≤ Fmt.emaxFin .binary32
  · rw [clampFields_of_le _ h, emaxField_eq_succ_emaxFin]
    omega
  · rw [clampFields_of_lt (Nat.lt_of_not_le h)]

/-- R99: the binary32 clamp leaves an all-ones exponent field only beside a fraction of zero. -/
theorem wordClass_clampFields_ne_nan (f : Fields) : wordClass .binary32 (clampFields .binary32 f) ≠ .nan := by
  rw [ne_eq, wordClass_eq_nan]
  rintro ⟨hE, hF⟩
  by_cases h : f.E ≤ Fmt.emaxFin .binary32
  · rw [clampFields_of_le _ h, emaxField_eq_succ_emaxFin] at hE
    omega
  · rw [clampFields_of_lt (Nat.lt_of_not_le h)] at hF
    exact hF rfl

theorem subnormal_fraction_lt {fmt : Fmt} {a : ℚ} (h : a < 2 ^ fmt.emin) : ⌊a * 2 ^ (-fmt.subExp)⌋₊ < 2 ^ fmt.T := by
  rw [Nat.floor_lt' (Nat.two_pow_pos _).ne', zpow_neg, mul_inv_lt_iff₀ (by positivity)]
  push_cast
  rwa [two_pow_T_mul_subExp]

/-- R100: the fraction field of any value, admitted or not, fits its width. -/
theorem encodeFields_F_lt (fmt : Fmt) (v : NumVal) : (encodeFields fmt v).F < 2 ^ fmt.T := by
  cases v with
  | zero | inf => exact Nat.two_pow_pos _
  | nan => exact qnan_fraction_lt fmt
  | fin s a =>
    by_cases h : a < 2 ^ fmt.emin
    · rw [encodeFields_of_lt fmt s h, subnormalFields_eq_floor]
      exact subnormal_fraction_lt h
    · rw [encodeFields_of_le fmt s (not_lt.mp h), normalFields_eq_floor]
      exact (clampFields_F_le fmt _).trans_lt (Nat.mod_lt _ (Nat.two_pow_pos _))

/-- R99: binary32 needs the clamp to keep the exponent field of any value in its width. -/
theorem encodeFields_binary32_E_le (v : NumVal) : (encodeFields .binary32 v).E ≤ Fmt.emaxField .binary32 := by
  cases v with
  | zero => exact Nat.zero_le _
  | inf | nan => exact le_rfl
  | fin s a =>
    by_cases h : a < 2 ^ Fmt.emin .binary32
    · rw [encodeFields_of_lt _ s h, subnormalFields_eq_floor]
      exact Nat.zero_le _
    · rw [encodeFields_of_le _ s (not_lt.mp h), normalFields_eq_floor]
      exact clampFields_binary32_E_le _

/-- R100: the exponent field of a value of binary64 fits its width in either format. -/
theorem encodeFields_E_le {v : NumVal} (fmt : Fmt) (hv : inValueSet .binary64 v = true) :
    (encodeFields fmt v).E ≤ fmt.emaxField := by
  cases fmt with
  | binary32 => exact encodeFields_binary32_E_le v
  | binary64 =>
    cases v with
    | zero => exact Nat.zero_le _
    | inf | nan => exact le_rfl
    | fin => exact (encodeFields_of_value hv rfl).1

/-- R100: the word an encoder outputs has the fields that were computed. -/
theorem unpack_word_encodeValue {v : NumVal} (fmt : Fmt) (hv : inValueSet .binary64 v = true) :
    unpack fmt (word fmt (encodeValue fmt v)) = encodeFields fmt v := by
  rw [encodeValue, word_bytes, unpack_pack fmt (encodeFields_E_le fmt hv) (encodeFields_F_lt fmt v)]

/-- R26: V64 has the values of either format. -/
theorem inValueSet_binary64 {fmt : Fmt} {v : NumVal} (hv : inValueSet fmt v = true) :
    inValueSet .binary64 v = true := by
  cases fmt with
  | binary64 => exact hv
  | binary32 => exact inValueSet_binary64_of_binary32 hv

/-- R73: either encoder gives a NaN word only to a NaN. -/
theorem isNaN_of_wordClass_encodeFields {fmt : Fmt} {v : NumVal} (hv : inValueSet .binary64 v = true)
    (h : wordClass fmt (encodeFields fmt v) = .nan) : v.isNaN = true := by
  cases fmt with
  | binary64 => exact magnitudeClass_eq_nan.mp ((wordClass_encodeFields hv).symm.trans h)
  | binary32 =>
    cases v with
    | zero | inf => simp [wordClass_eq_nan] at h
    | nan => rfl
    | fin s a =>
      by_cases ha : a < 2 ^ Fmt.emin .binary32
      · rw [encodeFields_of_lt _ s ha, subnormalFields_eq_floor, wordClass_eq_nan] at h
        exact absurd h.1.symm (emaxField_pos _).ne'
      · rw [encodeFields_of_le _ s (not_lt.mp ha), normalFields_eq_floor] at h
        exact absurd h (wordClass_clampFields_ne_nan _)

/-! ### Zeros, infinities and NaNs -/

section special
variable (s : Sign) (pl : Payload)

theorem encodeValue_binary64_zero :
    encodeValue .binary64 (.zero s) = #v[if s = .minus then 0x80 else 0, 0, 0, 0, 0, 0, 0, 0] := by
  cases s <;> rfl

theorem encodeValue_binary64_inf :
    encodeValue .binary64 (.inf s) = #v[if s = .minus then 0xFF else 0x7F, 0xF0, 0, 0, 0, 0, 0, 0] := by
  cases s <;> rfl

theorem encodeValue_binary64_nan :
    encodeValue .binary64 (.nan s pl) = #v[if s = .minus then 0xFF else 0x7F, 0xF8, 0, 0, 0, 0, 0, 0] := by
  rw [encodeValue, encodeFields_nan, show Fmt.qnanBit .binary64 = 51 from rfl]
  cases s <;> rfl

theorem encodeValue_binary32_zero :
    encodeValue .binary32 (.zero s) = #v[if s = .minus then 0x80 else 0, 0, 0, 0] := by
  cases s <;> rfl

theorem encodeValue_binary32_inf :
    encodeValue .binary32 (.inf s) = #v[if s = .minus then 0xFF else 0x7F, 0x80, 0, 0] := by
  cases s <;> rfl

theorem encodeValue_binary32_nan :
    encodeValue .binary32 (.nan s pl) = #v[if s = .minus then 0xFF else 0x7F, 0xC0, 0, 0] := by
  rw [encodeValue, encodeFields_nan, show Fmt.qnanBit .binary32 = 22 from rfl]
  cases s <;> rfl

end special

/-! ### Admitted operands -/

theorem admittedEnc32_of_inValueSet {wide : Bool} {v : NumVal} (hv : inValueSet .binary32 v = true) :
    admittedEnc32 wide v = true := by
  simp [admittedEnc32, hv]

section answers
variable {v : NumVal} (st : State)

/-- R101: ENC64 answers a value of binary64 with its encoding. -/
theorem exec_enc64_of_inValueSet {b : Bytes 8} (hv : inValueSet .binary64 v = true)
    (hb : encodeValue .binary64 v = b) : exec (.enc64 v) st = .next (st.respond (.enc64 v) (.bytes8 b)) :=
  hb ▸ exec_of_admitted (i := .enc64 v) hv

/-- R102: ENC32 answers a value of binary32 with its encoding, whatever `WIDE_ENC32` is. -/
theorem exec_enc32_of_inValueSet {b : Bytes 4} (hv : inValueSet .binary32 v = true)
    (hb : encodeValue .binary32 v = b) : exec (.enc32 v) st = .next (st.respond (.enc32 v) (.bytes4 b)) :=
  hb ▸ exec_of_admitted (i := .enc32 v) (admittedEnc32_of_inValueSet hv)

end answers

/-- R26: what is in a value set has a positive magnitude where it has one. -/
theorem wellFormed_of_inValueSet {fmt : Fmt} {v : NumVal} (hv : inValueSet fmt v = true) : v.wellFormed = true := by
  cases v with
  | zero | inf | nan => rfl
  | fin s a =>
    simp only [inValueSet, isMagnitudeOf, Bool.and_eq_true] at hv
    exact hv.1.1

/-- R27: an admitted operand makes a well-formed request. -/
theorem wellFormed_of_admitted {wide : Bool} {i : Instr} (h : admitted wide i = true) : i.wellFormed = true := by
  cases i with
  | dec64 | dec32 => rfl
  | enc64 v => exact wellFormed_of_inValueSet h
  | enc32 v =>
    obtain h32 | ⟨h64, _⟩ : inValueSet .binary32 v = true ∨ inValueSet .binary64 v = true ∧ wide = true := by
      simpa [admitted, admittedEnc32] using h
    · exact wellFormed_of_inValueSet h32
    · exact wellFormed_of_inValueSet h64

/-- R70, R72: every operation has a request. -/
theorem exists_instr_op (op : Op) : ∃ i : Instr, i.wellFormed = true ∧ i.op = op := by
  cases op with
  | enc64 => exact ⟨.enc64 (.zero .plus), rfl, rfl⟩
  | dec64 => exact ⟨.dec64 (Vector.replicate 8 0), rfl, rfl⟩
  | enc32 => exact ⟨.enc32 (.zero .plus), rfl, rfl⟩
  | dec32 => exact ⟨.dec32 (Vector.replicate 4 0), rfl, rfl⟩

/-- R72: an admitted request is read from its encoding, and it answers. -/
theorem decode_and_exec_of_admitted {i : Instr} {s : State} (h : admitted s.wideEnc32 i = true) :
    decode (encode i) = .ok i ∧ ∃ t, exec i s = .next t :=
  ⟨decode_encode (wellFormed_of_admitted h), _, exec_of_admitted h⟩

end Sys2Proof.Machine

/-!
The statements of 30_encoding.md.
-/

namespace Sys2Proof.Machine

/-- Settles O3: every operation has a request, what is admitted is well formed, and an operation refuses nothing else. -/
theorem noIllegalEncodings : Obligations.NoIllegalEncodings := by
  refine ⟨fun op => ?_,
    fun b st => decode_and_exec_of_admitted (i := .dec64 b) (s := st) rfl,
    fun b st => decode_and_exec_of_admitted (i := .dec32 b) (s := st) rfl,
    fun v st h => decode_and_exec_of_admitted (i := .enc64 v) (s := st) h,
    fun v st h => decode_and_exec_of_admitted (i := .enc32 v) (s := st) h,
    fun v st h => exec_of_not_admitted (i := .enc64 v) (s := st) (Bool.eq_false_iff.mp h),
    fun v st h => exec_of_not_admitted (i := .enc32 v) (s := st) (Bool.eq_false_iff.mp h)⟩
  obtain ⟨i, hwf, hop⟩ := exists_instr_op (Op.ofBits op)
  exact ⟨i.operand, i, decode_eq_ok_iff.mpr ⟨hwf, by rw [encode, hop, bits_ofBits]⟩⟩

/-- Settles O5: the two maps are inverse, and each bit of a byte is a bit of the word. -/
theorem wordsAndBytes : Obligations.WordsAndBytes := by
  refine ⟨fun fmt w k => ?_, word_toNat, word_bytes, bytes_word, fun w => ?_, fun w => ?_, fun w => ?_, fun w => ?_⟩
  · rw [two_pow_place]
    exact bytes_getElem_toNat fmt w k.isLt
  · exact bytes_getLsbD .binary64 w (by decide) (by decide)
  · exact bytes_getLsbD .binary32 w (by decide) (by decide)
  · rw [unpack_eq, bytes_getElem_toNat .binary64 w (by decide), bytes_getElem_toNat .binary64 w (by decide)]
    simp only [Fmt.T, Fmt.W, Fmt.NB, Fmt.N]
    omega
  · rw [unpack_eq, bytes_getElem_toNat .binary32 w (by decide), bytes_getElem_toNat .binary32 w (by decide)]
    simp only [Fmt.T, Fmt.W, Fmt.NB, Fmt.N]
    omega

/-- Settles O6: packing and unpacking are inverse in range, and every value of V64 has fields in range. -/
theorem packingIsInRange : Obligations.PackingIsInRange :=
  ⟨fun fmt _ hE hF => ⟨pack_toNat fmt hE hF, unpack_pack fmt hE hF⟩, pack_unpack,
    fun fmt v hv => ⟨encodeFields_E_le fmt hv, encodeFields_F_lt fmt v, rfl⟩⟩

/-- Settles O8: a class has as many words of a sign as it has exponent fields times fraction fields. -/
theorem classCounts : Obligations.ClassCounts :=
  ⟨card_words_by_class .binary64, card_words_by_class .binary32⟩

/-- Settles O12: the class of a value of a format is the class of the fields it encodes to. -/
theorem classesOfInputs : Obligations.ClassesOfInputs := by
  refine ⟨fun _ _ => rfl, fun _ _ => rfl, fun _ _ _ => rfl, fun _ _ => magnitudeClass_fin_iff .binary64,
    fun _ _ => magnitudeClass_fin_iff .binary32, fun fmt v hv => ?_⟩
  rw [unpack_word_encodeValue fmt (inValueSet_binary64 hv), wordClass_encodeFields hv]

/-- Settles O24: only a NaN has a NaN word; decoding gives the one value of any other word; and 2^24 + 1, which needs
25 bits, is truncated by ENC32 to 2^24. -/
theorem imageOfEncoders : Obligations.ImageOfEncoders := by
  refine ⟨fun v hv h => ?_, fun v hv h => ?_, fun fmt w hw => ?_,
    .fin .plus 16777217, .fin .plus 16777216, by decide +kernel⟩
  · rw [unpack_word_encodeValue .binary64 hv] at h
    obtain ⟨s, pl, rfl⟩ := isNaN_iff.mp (isNaN_of_wordClass_encodeFields hv h)
    exact encodeValue_binary64_nan s pl
  · rw [unpack_word_encodeValue .binary32 hv] at h
    obtain ⟨s, pl, rfl⟩ := isNaN_iff.mp (isNaN_of_wordClass_encodeFields hv h)
    exact encodeValue_binary32_nan s pl
  · have hb : wordClass fmt (unpack fmt (word fmt (bytes fmt w))) ≠ .nan := by rwa [word_bytes]
    refine ⟨decodeValue fmt (bytes fmt w), ⟨inValueSet_decodeValue _ _, decodeValue_isNaN_eq_false hb,
      encodeValue_decodeValue hb⟩, ?_⟩
    rintro v ⟨hv, hn, henc⟩
    rw [← henc, decodeValue_encodeValue hv hn]

/-- Settles O1: a request is read from its encoding, and a number of the table is the encoding of its request. -/
theorem requestWordsDecode : Obligations.RequestWordsDecode :=
  ⟨decode_encode (i := .enc64 (.zero .minus)) rfl,
    decode_encode (i := .dec64 #v[0x3F, 0xF0, 0, 0, 0, 0, 0, 1]) rfl,
    decode_encode (i := .enc32 (.inf .minus)) rfl,
    decode_encode (i := .dec32 #v[0x3F, 0x80, 0, 1]) rfl,
    decodeTableWord_eq_some.mpr (decode_encode (i := .enc64 (.zero .plus)) rfl),
    decodeTableWord_eq_some.mpr (decode_encode (i := .dec64 #v[0, 0, 0, 0, 0, 0, 0, 0]) rfl),
    decodeTableWord_eq_some.mpr (decode_encode (i := .enc32 (.zero .plus)) rfl),
    decodeTableWord_eq_some.mpr (decode_encode (i := .dec32 #v[0, 0, 0, 0]) rfl)⟩

/-- Settles O4: the positions of the fields are those of the format. -/
theorem fieldsOfWords : Obligations.FieldsOfWords :=
  ⟨unpack_eq_bits .binary64, unpack_eq_bits .binary32, rfl, rfl⟩

/-- Settles O7: each class is its rectangle of exponent and fraction fields, and no class reads the sign. -/
theorem classesOfWords : Obligations.ClassesOfWords := by
  intro fmt w
  obtain ⟨hE, hF⟩ := unpack_ranges fmt w
  have hclass := wordClass_eq_iff hE hF
  refine ⟨?_, ?_, ?_, ?_, ?_, fun _ => rfl⟩ <;> refine (hclass _).trans ?_ <;>
    simp [classExponents, classFractions, Fmt.emaxField, Fmt.emaxFin, hF, Nat.one_le_iff_ne_zero]

/-- Settles O13: each of these operands is admitted by both encoders, and its encoding is read off its fields. -/
theorem encodeZeroInfinityNaN : Obligations.EncodeZeroInfinityNaN :=
  fun s pl st =>
    ⟨exec_enc64_of_inValueSet st rfl (encodeValue_binary64_zero s),
      exec_enc64_of_inValueSet st rfl (encodeValue_binary64_inf s),
      exec_enc64_of_inValueSet st rfl (encodeValue_binary64_nan s pl),
      exec_enc32_of_inValueSet st rfl (encodeValue_binary32_zero s),
      exec_enc32_of_inValueSet st rfl (encodeValue_binary32_inf s),
      exec_enc32_of_inValueSet st rfl (encodeValue_binary32_nan s pl)⟩

end Sys2Proof.Machine

/-!
How a magnitude compares with the powers of two (R13), what the floors of the encoders keep of it (R97, R98), and the
largest value of a format not above it (R104).
-/

namespace Sys2Proof.Machine

/-! ### Powers of two and scaled floors -/

/-- R13: the powers of two up to a magnitude are those below its exponent. -/
theorem two_zpow_le_iff {a : ℚ} (ha : 0 < a) {k : ℤ} : (2 : ℚ) ^ k ≤ a ↔ k < normExponent a := by
  obtain ⟨hlo, hhi⟩ := normExponent_bracket ha
  constructor
  · exact fun h => (zpow_lt_zpow_iff_right₀ (by norm_num)).mp (h.trans_lt hhi)
  · exact fun h => (zpow_le_zpow_right₀ (by norm_num) (by omega)).trans hlo

theorem lt_two_zpow_iff {a : ℚ} (ha : 0 < a) {k : ℤ} : a < (2 : ℚ) ^ k ↔ normExponent a ≤ k := by
  rw [← not_le, two_zpow_le_iff ha, not_lt]

/-- A floor at a scale counts the multiples of the scale. -/
theorem le_floor_scaled_iff {a : ℚ} (ha : 0 < a) {n : ℕ} {q : ℤ} : n ≤ ⌊a * 2 ^ (-q)⌋₊ ↔ (n : ℚ) * 2 ^ q ≤ a := by
  rw [Nat.le_floor_iff (by positivity), zpow_neg, le_mul_inv_iff₀ (by positivity)]

theorem two_pow_le_floor_iff {a : ℚ} (ha : 0 < a) {n : ℕ} {q : ℤ} :
    2 ^ n ≤ ⌊a * 2 ^ (-q)⌋₊ ↔ n + q < normExponent a := by
  rw [le_floor_scaled_iff ha, Nat.cast_pow, Nat.cast_ofNat, ← two_zpow_natCast_add, two_zpow_le_iff ha]

theorem floor_lt_two_pow_iff {a : ℚ} (ha : 0 < a) {n : ℕ} {q : ℤ} :
    ⌊a * 2 ^ (-q)⌋₊ < 2 ^ n ↔ normExponent a ≤ n + q := by
  rw [← not_le, two_pow_le_floor_iff ha, not_lt]

theorem one_le_floor_iff {a : ℚ} (ha : 0 < a) {q : ℤ} : 1 ≤ ⌊a * 2 ^ (-q)⌋₊ ↔ q < normExponent a := by
  simpa using two_pow_le_floor_iff ha (n := 0) (q := q)

/-- A significand of `P` bits with its leading bit set loses that bit in its fraction. -/
theorem significand_mod {fmt : Fmt} {M : ℕ} (hM : 2 ^ fmt.T ≤ M) (hM' : M < 2 ^ fmt.P) :
    M % 2 ^ fmt.T = M - 2 ^ fmt.T := by
  rw [Fmt.P, pow_succ] at hM'
  rw [Nat.mod_eq_sub_mod hM, Nat.mod_eq_of_lt (by omega)]

section scientific
variable {m : ℚ} (hm : 1 / 2 ≤ m) (hm' : m < 1)
include hm hm'

theorem scientific_pos (e : ℤ) : 0 < m * 2 ^ e := by
  have : 0 < m := by linarith
  positivity

theorem normExponent_scientific (e : ℤ) : normExponent (m * 2 ^ e) = e := by
  obtain ⟨hlo, hhi⟩ := scientific_bracket e hm hm'
  exact normExponent_eq hlo hhi

/-- R98: the truncated significand has `P` bits and its leading bit is set. -/
theorem floor_significand_range (fmt : Fmt) : 2 ^ fmt.T ≤ ⌊m * 2 ^ fmt.P⌋₊ ∧ ⌊m * 2 ^ fmt.P⌋₊ < 2 ^ fmt.P := by
  have hpos := scientific_pos hm hm' 0
  have hexp := normExponent_scientific hm hm' 0
  rw [zpow_zero, mul_one] at hpos hexp
  have hscale : m * 2 ^ fmt.P = m * 2 ^ (-(-(fmt.P : ℤ))) := by rw [neg_neg, zpow_natCast]
  rw [hscale, two_pow_le_floor_iff hpos, floor_lt_two_pow_iff hpos, hexp, Fmt.P]
  omega

end scientific

/-! ### The exponents of a format -/

theorem emin_eq_neg_normOffset (fmt : Fmt) : fmt.emin = -fmt.normOffset := by
  rw [Fmt.emin, bias_eq_succ_normOffset]
  omega

theorem lastPlace_of_lt {fmt : Fmt} {a : ℚ} (ha : 0 < a) (h : a < 2 ^ fmt.emin) : lastPlace fmt a = fmt.subExp := by
  have hexp := (lt_two_zpow_iff ha).mp h
  have hemin := emin_eq_subExp_add fmt
  rw [lastPlace, Fmt.P]
  omega

theorem lastPlace_of_le {fmt : Fmt} {a : ℚ} (ha : 0 < a) (h : 2 ^ fmt.emin ≤ a) :
    lastPlace fmt a = normExponent a - fmt.P := by
  have hexp := (two_zpow_le_iff ha).mp h
  have hemin := emin_eq_subExp_add fmt
  rw [lastPlace, Fmt.P]
  omega

section magnitude
variable {fmt : Fmt} {a : ℚ} (h : isMagnitudeOf fmt a = true)
include h

theorem isMagnitudeOf_pos : 0 < a := by
  obtain ⟨M, q, hpos, _, _, _, rfl⟩ := isMagnitudeOf_iff.mp h
  positivity

/-- R26: the least magnitude of a format. -/
theorem subExp_lt_normExponent : fmt.subExp < normExponent a := by
  obtain ⟨M, q, hpos, _, hq, _, rfl⟩ := isMagnitudeOf_iff.mp h
  rw [← two_zpow_le_iff (isMagnitudeOf_pos h)]
  calc (2 : ℚ) ^ fmt.subExp ≤ 2 ^ q := zpow_le_zpow_right₀ (by norm_num) hq
    _ ≤ M * 2 ^ q := le_mul_of_one_le_left (by positivity) (by exact_mod_cast hpos)

/-- R105: no magnitude of a format reaches the power of two above its largest exponent. -/
theorem normExponent_le_bias_succ : normExponent a ≤ fmt.bias + 1 := by
  obtain ⟨M, q, hpos, hM, _, hq, rfl⟩ := isMagnitudeOf_iff.mp h
  have hM : (M : ℚ) < 2 ^ fmt.P := by exact_mod_cast hM
  rw [← lt_two_zpow_iff (isMagnitudeOf_pos h)]
  calc (M : ℚ) * 2 ^ q < 2 ^ fmt.P * 2 ^ q := by gcongr
    _ = 2 ^ (fmt.P + q) := (two_zpow_natCast_add _ _).symm
    _ ≤ 2 ^ ((fmt.bias : ℤ) + 1) := zpow_le_zpow_right₀ (by norm_num) (by rw [Fmt.P]; omega)

/-- R103: the exponent field of a value of a format is a finite one. -/
theorem normExponent_add_normOffset_le : normExponent a + fmt.normOffset ≤ fmt.emaxFin := by
  have hexp := normExponent_le_bias_succ h
  have hmax := emaxField_eq_two_bias fmt
  have hfin := emaxField_eq_succ_emaxFin fmt
  have hbias := bias_eq_succ_normOffset fmt
  omega

end magnitude

/-! ### The fields of a value in scientific form -/

/-- R92: the sign field is the sign of the value. -/
@[simp] theorem encodeFields_s (fmt : Fmt) (v : NumVal) : (encodeFields fmt v).s = v.sign := by
  cases v with
  | zero | inf | nan => rfl
  | fin s a =>
    by_cases h : a < 2 ^ fmt.emin
    · rw [encodeFields_of_lt fmt s h, subnormalFields_eq_floor, NumVal.sign]
    · rw [encodeFields_of_le fmt s (not_lt.mp h), normalFields_eq_floor, clampFields_s, NumVal.sign]

/-- R97: the fields of a subnormal input. -/
theorem encodeFields_scientific_subnormal (fmt : Fmt) (s : Sign) {m : ℚ} {e : ℤ} (h : m * 2 ^ e < 2 ^ fmt.emin) :
    encodeFields fmt (.fin s (m * 2 ^ e)) = ⟨s, 0, ⌊m * 2 ^ (e - fmt.subExp)⌋₊⟩ := by
  rw [encodeFields_of_lt fmt s h, subnormalFields_eq_floor, mul_assoc, ← zpow_add₀ (by norm_num), ← sub_eq_add_neg]

/-- R98: the fields of a normal input that needs no clamp. -/
theorem encodeFields_scientific_normal {fmt : Fmt} (s : Sign) {m : ℚ} {e : ℤ} (hm : 1 / 2 ≤ m) (hm' : m < 1)
    (h : 2 ^ fmt.emin ≤ m * 2 ^ e) (hE : e + fmt.normOffset ≤ fmt.emaxFin) :
    encodeFields fmt (.fin s (m * 2 ^ e)) =
      ⟨s, (e + fmt.normOffset).toNat, ⌊m * 2 ^ fmt.P⌋₊ % 2 ^ fmt.T⟩ := by
  have hform := (scientificForm_eq_iff (scientific_pos hm hm' e)).mpr ⟨hm, hm', rfl⟩
  rw [encodeFields_of_le fmt s h, normalFields_eq fmt s hform, clampFields_of_le fmt (Int.toNat_le.mpr hE)]

/-- R105: a value of a format is never given the all-ones exponent field. -/
theorem encodeFields_E_le_emaxFin {fmt : Fmt} {s : Sign} {a : ℚ} (h : inValueSet fmt (.fin s a) = true) :
    (encodeFields fmt (.fin s a)).E ≤ fmt.emaxFin := by
  by_cases ha : a < 2 ^ fmt.emin
  · rw [encodeFields_of_lt fmt s ha, subnormalFields_eq_floor]
    exact Nat.zero_le _
  · have hexp := normExponent_add_normOffset_le h
    have hE : (normExponent a + fmt.normOffset).toNat ≤ fmt.emaxFin := by omega
    rwa [encodeFields_of_le fmt s (not_lt.mp ha), normalFields_eq_floor, clampFields_of_le fmt hE]

/-- R99: binary32 clamps a magnitude above every finite exponent to an infinity. -/
theorem encodeFields_binary32_overflow (s : Sign) {a : ℚ} (h : 2 ^ (128 : ℤ) ≤ a) :
    encodeFields .binary32 (.fin s a) = encodeFields .binary32 (.inf s) := by
  have ha : 0 < a := lt_of_lt_of_le (by positivity) h
  have hexp := (two_zpow_le_iff ha).mp h
  have hnormal : (2 : ℚ) ^ Fmt.emin .binary32 ≤ a := (two_zpow_le_iff ha).mpr (lt_trans (by decide) hexp)
  have hE : Fmt.emaxFin .binary32 < (normExponent a + Fmt.normOffset .binary32).toNat := by
    simp only [Fmt.emaxFin, Fmt.W, Fmt.normOffset, Fmt.bias]
    omega
  rw [encodeFields_of_le _ s hnormal, normalFields_eq_floor, clampFields_of_lt hE, encodeFields_inf]

/-- R97, R104: below the least magnitude of a format nothing is left. -/
theorem encodeFields_underflow (fmt : Fmt) (s : Sign) {a : ℚ} (ha : 0 < a) (h : a < 2 ^ fmt.subExp) :
    encodeFields fmt (.fin s a) = encodeFields fmt (.zero s) := by
  have hexp := (lt_two_zpow_iff ha).mp h
  have hsub : a < 2 ^ fmt.emin := by
    rw [lt_two_zpow_iff ha, emin_eq_subExp_add]
    omega
  have hzero : ⌊a * 2 ^ (-fmt.subExp)⌋₊ = 0 := by
    rw [← Nat.lt_one_iff, ← not_le, one_le_floor_iff ha]
    omega
  rw [encodeFields_of_lt fmt s hsub, subnormalFields_eq_floor, hzero, encodeFields_zero]

/-! ### Truncation to a format -/

/-- The multiple of the last place that is reached from a magnitude by rounding toward zero (R104). -/
def truncation (fmt : Fmt) (a : ℚ) : ℚ := ⌊a * 2 ^ (-lastPlace fmt a)⌋₊ * 2 ^ lastPlace fmt a

section truncation
variable {fmt : Fmt} {a : ℚ} (ha : 0 < a)
include ha

theorem truncation_le : truncation fmt a ≤ a := (le_floor_scaled_iff ha).mp le_rfl

/-- Rounding toward zero skips no value of the format: at the last place or above, such a value is one of the multiples
that are counted, and below it, it is less than the leading bit of the magnitude. -/
theorem le_truncation {y : ℚ} (hy : isMagnitudeOf fmt y = true) (hya : y ≤ a) : y ≤ truncation fmt a := by
  obtain ⟨M, r, hpos, hM, hr, -, rfl⟩ := isMagnitudeOf_iff.mp hy
  rw [truncation]
  have hq : lastPlace fmt a = max (normExponent a - fmt.P) fmt.subExp := rfl
  generalize lastPlace fmt a = q at *
  obtain hle | hlt := le_or_gt q r
  · obtain ⟨d, rfl⟩ := Int.le.dest hle
    have hmultiple : (M : ℚ) * 2 ^ (q + d) = (M * 2 ^ d : ℕ) * 2 ^ q := by
      rw [add_comm, two_zpow_natCast_add]
      push_cast
      ring
    rw [hmultiple] at hya ⊢
    gcongr
    exact (le_floor_scaled_iff ha).mpr hya
  · have hlead : 2 ^ fmt.T ≤ ⌊a * 2 ^ (-q)⌋₊ := (two_pow_le_floor_iff ha).mpr (by rw [Fmt.P] at hq; omega)
    have hM : (M : ℚ) ≤ 2 ^ fmt.P := by exact_mod_cast hM.le
    calc (M : ℚ) * 2 ^ r ≤ 2 ^ fmt.P * 2 ^ r := by gcongr
      _ = 2 ^ (fmt.P + r) := (two_zpow_natCast_add _ _).symm
      _ ≤ 2 ^ (fmt.T + q) := zpow_le_zpow_right₀ (by norm_num) (by rw [Fmt.P]; omega)
      _ = 2 ^ fmt.T * 2 ^ q := two_zpow_natCast_add _ _
      _ ≤ ⌊a * 2 ^ (-q)⌋₊ * 2 ^ q := by gcongr; exact_mod_cast hlead

theorem floor_lastPlace_lt : ⌊a * 2 ^ (-lastPlace fmt a)⌋₊ < 2 ^ fmt.P := by
  rw [floor_lt_two_pow_iff ha, lastPlace]
  omega

theorem isMagnitudeOf_truncation (hlo : 2 ^ fmt.subExp ≤ a) (hhi : a < 2 ^ ((fmt.bias : ℤ) + 1)) :
    isMagnitudeOf fmt (truncation fmt a) = true := by
  have hlo := (two_zpow_le_iff ha).mp hlo
  have hhi := (lt_two_zpow_iff ha).mp hhi
  have hbias := bias_eq_succ_normOffset fmt
  refine isMagnitudeOf_significand ((one_le_floor_iff ha).mpr ?_) (floor_lastPlace_lt ha) (le_max_right _ _) ?_
  all_goals
    simp only [lastPlace, Fmt.P, Fmt.subExp] at *
    omega

theorem emin_le_truncation (h : 2 ^ fmt.emin ≤ a) : 2 ^ fmt.emin ≤ truncation fmt a := by
  refine le_truncation ha ?_ h
  rw [← one_mul ((2 : ℚ) ^ fmt.emin), ← Nat.cast_one]
  refine isMagnitudeOf_significand le_rfl (Nat.one_lt_two_pow (Nat.succ_ne_zero _)) ?_ ?_
  · rw [emin_eq_subExp_add]
    omega
  · cases fmt <;> decide

/-- R97, R98: the encoders read no more of a magnitude than its truncation. -/
theorem encodeFields_truncation (s : Sign) :
    encodeFields fmt (.fin s (truncation fmt a)) = encodeFields fmt (.fin s a) := by
  by_cases h : a < 2 ^ fmt.emin
  · rw [truncation, lastPlace_of_lt ha h, encodeFields_subnormal fmt s (subnormal_fraction_lt h),
      encodeFields_of_lt fmt s h, subnormalFields_eq_floor]
  · have h := not_lt.mp h
    have hlast := lastPlace_of_le ha h
    have hM' := floor_lastPlace_lt ha (fmt := fmt)
    have hM : 2 ^ fmt.T ≤ ⌊a * 2 ^ (-lastPlace fmt a)⌋₊ :=
      (two_pow_le_floor_iff ha).mpr (by rw [hlast, Fmt.P]; omega)
    have hE : lastPlace fmt a - fmt.subExp + 1 = normExponent a + fmt.normOffset := by
      rw [hlast, Fmt.P, Fmt.subExp, bias_eq_succ_normOffset]
      omega
    rw [encodeFields_of_le fmt s (emin_le_truncation ha h), truncation, normalFields_significand fmt s hM hM', hE,
      encodeFields_of_le fmt s h, normalFields_eq_floor, ← significand_mod hM hM', hlast, neg_sub]

end truncation

section ownValues
variable {fmt : Fmt} {a : ℚ} (h : isMagnitudeOf fmt a = true)
include h

/-- R103: nothing is truncated on a format's own values. -/
theorem truncation_eq_self : truncation fmt a = a :=
  have ha := isMagnitudeOf_pos h
  le_antisymm (truncation_le ha) (le_truncation ha h le_rfl)

/-- R103: at the scale of its last place a magnitude of a format is an integer. -/
theorem exists_natCast_eq_scaled : ∃ n : ℕ, a * 2 ^ (-lastPlace fmt a) = n := by
  refine ⟨⌊a * 2 ^ (-lastPlace fmt a)⌋₊, ?_⟩
  rw [zpow_neg, mul_inv_eq_iff_eq_mul₀ (by positivity), ← zpow_neg]
  exact (truncation_eq_self h).symm

end ownValues

/-! ### Answers as words and bytes -/

theorem encodeValue_congr {fmt : Fmt} {v v' : NumVal} (h : encodeFields fmt v = encodeFields fmt v') :
    encodeValue fmt v = encodeValue fmt v' := by
  rw [encodeValue, h, encodeValue]

/-- R65, R91: an encoding is the bytes of the sum of the placed fields. -/
theorem encodeValue_eq_bytes {fmt : Fmt} {v : NumVal} {s : Sign} {E F : ℕ} (h : encodeFields fmt v = ⟨s, E, F⟩) :
    encodeValue fmt v = bytes fmt (BitVec.ofNat fmt.N (s.bit * 2 ^ (fmt.N - 1) + E * 2 ^ fmt.T + F)) := by
  rw [encodeValue, h, pack]

/-- R65, R97: without an exponent field the sum has two summands. -/
theorem encodeValue_eq_bytes_of_E_zero {fmt : Fmt} {v : NumVal} {s : Sign} {F : ℕ}
    (h : encodeFields fmt v = ⟨s, 0, F⟩) :
    encodeValue fmt v = bytes fmt (BitVec.ofNat fmt.N (s.bit * 2 ^ (fmt.N - 1) + F)) := by
  rw [encodeValue_eq_bytes h, Nat.zero_mul, Nat.add_zero]

/-- R102: ENC32 answers an admitted operand with its encoding. -/
theorem exec_enc32_of_admitted {v : NumVal} {st : State} {b : Bytes 4} (hv : admittedEnc32 st.wideEnc32 v = true)
    (hb : encodeValue .binary32 v = b) : exec (.enc32 v) st = .next (st.respond (.enc32 v) (.bytes4 b)) :=
  hb ▸ exec_of_admitted (i := .enc32 v) hv

/-! ### Fractions and exponents in scientific form -/

section scientific
variable {fmt : Fmt} {m : ℚ} {e : ℤ}

theorem scientific_fraction_lt (h : m * 2 ^ e < 2 ^ fmt.emin) : ⌊m * 2 ^ (e - fmt.subExp)⌋₊ < 2 ^ fmt.T := by
  rw [sub_eq_add_neg, zpow_add₀ (by norm_num), ← mul_assoc]
  exact subnormal_fraction_lt h

/-- R97: a value of the format keeps a fraction. -/
theorem one_le_scientific_fraction {s : Sign} (h : inValueSet fmt (.fin s (m * 2 ^ e)) = true) :
    1 ≤ ⌊m * 2 ^ (e - fmt.subExp)⌋₊ := by
  rw [sub_eq_add_neg, zpow_add₀ (by norm_num), ← mul_assoc, one_le_floor_iff (isMagnitudeOf_pos h)]
  exact subExp_lt_normExponent h

variable (hm : 1 / 2 ≤ m) (hm' : m < 1)
include hm hm'

theorem two_zpow_le_scientific_iff {k : ℤ} : (2 : ℚ) ^ k ≤ m * 2 ^ e ↔ k < e := by
  rw [two_zpow_le_iff (scientific_pos hm hm' e), normExponent_scientific hm hm']

/-- R98: the exponent field of a normal input is at least 1. -/
theorem one_le_normal_exponent (h : 2 ^ fmt.emin ≤ m * 2 ^ e) : 1 ≤ e + fmt.normOffset := by
  have hexp := (two_zpow_le_scientific_iff hm hm').mp h
  rw [emin_eq_neg_normOffset] at hexp
  omega

/-- R106: the fraction of a normal is its magnitude at the scale of its last place, without the leading bit. -/
theorem normal_fraction_eq_floor : ((⌊m * 2 ^ fmt.P⌋₊ % 2 ^ fmt.T : ℕ) : ℤ) =
    ⌊m * 2 ^ e * 2 ^ ((fmt.T : ℤ) - (e + fmt.normOffset) + fmt.bias)⌋ - 2 ^ fmt.T := by
  obtain ⟨hlead, hwidth⟩ := floor_significand_range hm hm' fmt
  have hscale : e + ((fmt.T : ℤ) - (e + fmt.normOffset) + fmt.bias) = fmt.P := by
    rw [Fmt.P, bias_eq_succ_normOffset]
    omega
  have hnonneg : 0 ≤ m * 2 ^ fmt.P := by positivity
  rw [mul_assoc, ← zpow_add₀ (by norm_num), hscale, zpow_natCast, significand_mod hlead hwidth, Nat.cast_sub hlead,
    Int.natCast_floor_eq_floor hnonneg, Nat.cast_pow, Nat.cast_ofNat]

/-- R103: the number under the floor of the subnormal rule or of the normal rule is an integer. -/
theorem exists_natCast_eq_fraction {s : Sign} (h : inValueSet fmt (.fin s (m * 2 ^ e)) = true) :
    (m * 2 ^ e < 2 ^ fmt.emin → ∃ n : ℕ, m * 2 ^ (e + fmt.normOffset + fmt.P - 1) = n) ∧
    (2 ^ fmt.emin ≤ m * 2 ^ e → ∃ n : ℕ, m * 2 ^ fmt.P = n) := by
  obtain ⟨n, hn⟩ := exists_natCast_eq_scaled h
  rw [mul_assoc, ← zpow_add₀ (by norm_num)] at hn
  refine ⟨fun hlt => ⟨n, hn ▸ ?_⟩, fun hle => ⟨n, hn ▸ ?_⟩⟩
  · rw [lastPlace_of_lt (scientific_pos hm hm' e) hlt, neg_subExp]
    ring_nf
  · rw [lastPlace_of_le (scientific_pos hm hm' e) hle, normExponent_scientific hm hm', neg_sub,
      add_sub_cancel, zpow_natCast]

end scientific

/-- R104: what a format neither loses nor clamps is encoded to a word of its truncation to the format. -/
theorem decodeValue_encodeValue_truncation {fmt : Fmt} (s : Sign) {a : ℚ} (hlo : 2 ^ fmt.subExp ≤ a)
    (hhi : a < 2 ^ ((fmt.bias : ℤ) + 1)) :
    decodeValue fmt (encodeValue fmt (.fin s a)) = .fin s (truncation fmt a) := by
  have ha : 0 < a := lt_of_lt_of_le (by positivity) hlo
  rw [← encodeValue_congr (encodeFields_truncation ha s)]
  exact decodeValue_encodeValue (isMagnitudeOf_truncation ha hlo hhi) rfl

/-- R104: a magnitude in the normal range of a format gets a normal word. -/
theorem wordClass_encodeFields_of_normal {fmt : Fmt} (s : Sign) {a : ℚ} (hlo : 2 ^ fmt.emin ≤ a)
    (hhi : a < 2 ^ ((fmt.bias : ℤ) + 1)) : wordClass fmt (encodeFields fmt (.fin s a)) = .normal := by
  have ha : 0 < a := lt_of_lt_of_le (by positivity) hlo
  have hsub : (2 : ℚ) ^ fmt.subExp ≤ a :=
    (zpow_le_zpow_right₀ (by norm_num) (by rw [emin_eq_subExp_add]; omega)).trans hlo
  have hmem : inValueSet fmt (.fin s (truncation fmt a)) = true := isMagnitudeOf_truncation ha hsub hhi
  rw [← encodeFields_truncation ha s, wordClass_encodeFields hmem]
  exact (magnitudeClass_fin_iff fmt).2.mpr (emin_le_truncation ha hlo)

end Sys2Proof.Machine

/-!
The statements of 41_encode.md.
-/

namespace Sys2Proof.Machine

/-- Settles O14: the sign field of the word is the one computed. -/
theorem encodeKeepsSign : Obligations.EncodeKeepsSign :=
  fun fmt v hv => by rw [unpack_word_encodeValue fmt hv, encodeFields_s]

/-- Settles O15: below the smallest normal magnitude the fraction is the magnitude counted in units of the smallest
one. -/
theorem encodeSubnormal : Obligations.EncodeSubnormal := by
  refine ⟨fun s m e st _ _ hadm hlt => ?_, fun s m e st _ _ hadm hlt => ?_⟩
  · exact ⟨one_le_scientific_fraction (fmt := .binary64) hadm, scientific_fraction_lt (fmt := .binary64) hlt,
      exec_enc64_of_inValueSet st hadm
        (encodeValue_eq_bytes_of_E_zero (encodeFields_scientific_subnormal .binary64 s hlt))⟩
  · exact ⟨one_le_scientific_fraction (fmt := .binary32), scientific_fraction_lt (fmt := .binary32) hlt,
      exec_enc32_of_admitted hadm
        (encodeValue_eq_bytes_of_E_zero (encodeFields_scientific_subnormal .binary32 s hlt))⟩

/-- Settles O16: a normal significand has its leading bit set, and the clamp leaves the fields alone. -/
theorem encodeNormal : Obligations.EncodeNormal := by
  refine ⟨fun s m e st hm hm' hadm hle => ?_, fun s m e st hm hm' hadm hle hE => ?_⟩
  · obtain ⟨hlead, hwidth⟩ := floor_significand_range hm hm' .binary64
    have hE := normExponent_scientific hm hm' e ▸ normExponent_add_normOffset_le hadm
    exact ⟨one_le_normal_exponent (fmt := .binary64) hm hm' hle, hlead, hwidth,
      exec_enc64_of_inValueSet st hadm (encodeValue_eq_bytes (encodeFields_scientific_normal s hm hm' hle hE))⟩
  · obtain ⟨hlead, hwidth⟩ := floor_significand_range hm hm' .binary32
    exact ⟨one_le_normal_exponent (fmt := .binary32) hm hm' hle, hlead, hwidth,
      exec_enc32_of_admitted hadm (encodeValue_eq_bytes (encodeFields_scientific_normal s hm hm' hle hE))⟩

/-- Settles O17: an exponent field above 254 is one of a magnitude of at least 2^128. -/
theorem encodeClampsBinary32 : Obligations.EncodeClampsBinary32 := by
  refine ⟨fun f => rfl, fun s m e st hm hm' hadm hE => ?_⟩
  have hbig : (2 : ℚ) ^ (128 : ℤ) ≤ m * 2 ^ e := (two_zpow_le_scientific_iff hm hm').mpr (by omega)
  exact exec_enc32_of_admitted hadm
    ((encodeValue_congr (encodeFields_binary32_overflow s hbig)).trans (encodeValue_binary32_inf s))

/-- Settles O18: ENC32 answers with the encoding of the truncation, the largest binary32 magnitude not above the
operand's; below the range the floor of R97 is 0, and above it the clamp of R99 fires. -/
theorem wideEnc32TowardZero : Obligations.WideEnc32TowardZero := by
  refine ⟨fun s a st hwide hv => ⟨encodeValue .binary32 (.fin s a), ?_, fun h => ?_, fun _ h => ?_, fun hlo hhi => ?_,
    fun hlo hhi => ?_, fun h => ?_⟩, ?_, ?_⟩
  · exact exec_enc32_of_admitted (by simp [admittedEnc32, hwide, hv]) rfl
  · exact (encodeValue_congr (encodeFields_underflow .binary32 s (isMagnitudeOf_pos hv) h)).trans
      (encodeValue_binary32_zero s)
  · rw [unpack_word_encodeValue .binary32 hv, encodeFields_of_lt .binary32 s h, subnormalFields_eq_floor]
    rfl
  · rw [unpack_word_encodeValue .binary32 hv]
    exact wordClass_encodeFields_of_normal s hlo hhi
  · have ha := isMagnitudeOf_pos hv
    exact ⟨truncation .binary32 a, decodeValue_encodeValue_truncation s hlo hhi, truncation_le ha,
      fun y hy hya => le_truncation ha hy hya⟩
  · exact (encodeValue_congr (encodeFields_binary32_overflow s h)).trans (encodeValue_binary32_inf s)
  all_goals
    simp only [← pow2_eq_zpow]
    decide +kernel

/-- Settles O19: a magnitude of the format is an integer at the scale of its last place, which is the scale of both
rules. -/
theorem encodeExactOnOwnValues : Obligations.EncodeExactOnOwnValues := by
  intro fmt s m e hm hm' hv
  obtain ⟨hsubnormal, hnormal⟩ := exists_natCast_eq_fraction hm hm' hv
  have hE := normExponent_add_normOffset_le hv
  rw [normExponent_scientific hm hm'] at hE
  exact ⟨hsubnormal, hnormal, hE, decodeValue_encodeValue hv rfl⟩

/-- Settles O20: the exponent of a magnitude of binary64 is at most 1024, and that of 2^1024 is 1025. -/
theorem enc64ExponentRange : Obligations.Enc64ExponentRange := by
  refine ⟨fun s m e hm hm' hv => ?_, fun s a st h => ?_⟩
  · have he : e ≤ 1024 := normExponent_scientific hm hm' e ▸ normExponent_le_bias_succ hv
    refine ⟨?_, he, by omega, ?_⟩
    · exact (lt_two_zpow_iff (scientific_pos hm hm' e)).mpr ((normExponent_scientific hm hm' e).trans_le he)
    · rw [unpack_word_encodeValue .binary64 hv]
      exact encodeFields_E_le_emaxFin hv
  · refine exec_of_not_admitted (i := .enc64 (.fin s a)) fun hadm => ?_
    have hexp : normExponent a ≤ 1024 := normExponent_le_bias_succ (fmt := .binary64) hadm
    exact absurd ((two_zpow_le_iff (isMagnitudeOf_pos hadm)).mp h) (not_lt.mpr hexp)

/-- Settles O21: both fractions are floors of the magnitude at one scale, the normal one without its leading bit. -/
theorem fractionClosedForms : Obligations.FractionClosedForms := by
  intro fmt s a ha
  have hsub := congrArg Fields.F (subnormalFields_eq_floor fmt s a)
  obtain ⟨hm, hm', heq⟩ := (scientificForm_eq_iff ha (m := (scientificForm a).1) (e := (scientificForm a).2)).mp rfl
  have hnormal := normal_fraction_eq_floor (fmt := fmt) (e := (scientificForm a).2) hm hm'
  rw [← heq] at hnormal
  exact ⟨hsub, (congrArg Fields.F (subnormalFields_eq fmt s rfl)).symm.trans hsub, hnormal⟩

end Sys2Proof.Machine

/-!
The decoders on a word by its fields: where the fields of a byte sequence stand in it (R64, R122), the fields behind
the NaN words (R126), and how decoded values compare (R133).
-/

namespace Sys2Proof.Machine

/-! ### The fields of a byte sequence -/

theorem NB_pos (fmt : Fmt) : 0 < fmt.NB := by cases fmt <;> decide

/-- R64: the top bit of a word is the top bit of its first byte. -/
theorem word_getLsbD_top (fmt : Fmt) (b : Bytes fmt.NB) :
    (word fmt b).getLsbD (fmt.N - 1) = (b[0]'(NB_pos fmt)).getLsbD 7 := by
  have h := bytes_getLsbD fmt (word fmt b) (NB_pos fmt) (show 7 < 8 by norm_num)
  rw [show fmt.N - 8 - 8 * 0 + 7 = fmt.N - 1 by cases fmt <;> rfl] at h
  simpa using h.symm

/-- R122: the fields of a byte sequence, the exponent and the fraction as quotient and remainder of its sum and the
sign as the top bit of its first byte. -/
theorem unpack_word_eq {fmt : Fmt} {b : Bytes fmt.NB} {w E F : ℕ} {s : Sign}
    (hw : ∑ k : Fin fmt.NB, b[k].toNat * 2 ^ (fmt.N - 8 - 8 * k.val) = w) (hE : w / 2 ^ fmt.T % 2 ^ fmt.W = E)
    (hF : w % 2 ^ fmt.T = F) (hs : s = .minus ↔ (b[0]'(NB_pos fmt)).getLsbD 7 = true) :
    unpack fmt (word fmt b) = ⟨s, E, F⟩ := by
  have hsign : (unpack fmt (word fmt b)).s = s := by
    rw [unpack_eq_bits, word_getLsbD_top]
    cases s <;> simp_all
  rw [unpack_eq] at hsign ⊢
  rw [Fields.mk.injEq]
  exact ⟨hsign, by rw [word_toNat, hw, hE], by rw [word_toNat, hw, hF]⟩

/-- Decoding the bytes of packed fields is decoding the fields. -/
theorem decodeValue_bytes_pack (fmt : Fmt) {f : Fields} (hE : f.E ≤ fmt.emaxField) (hF : f.F < 2 ^ fmt.T) :
    decodeValue fmt (bytes fmt (pack fmt f)) = decodeFields fmt f := by
  rw [decodeValue, word_bytes, unpack_pack fmt hE hF]

section exec
variable (st : State) {v : NumVal}

theorem exec_dec64_of_decodeValue {b : Bytes 8} (h : decodeValue .binary64 b = v) :
    exec (.dec64 b) st = .next (st.respond (.dec64 b) (.num v)) :=
  h ▸ exec_of_admitted rfl

theorem exec_dec32_of_decodeValue {b : Bytes 4} (h : decodeValue .binary32 b = v) :
    exec (.dec32 b) st = .next (st.respond (.dec32 b) (.num v)) :=
  h ▸ exec_of_admitted rfl

end exec

/-! ### NaN words -/

theorem qnanBit_eq (fmt : Fmt) : fmt.qnanBit = fmt.T - 1 := rfl

theorem decodeFields_of_nan {fmt : Fmt} {f : Fields} (h : wordClass fmt f = .nan) :
    decodeFields fmt f = .nan f.s Config.canonPayload := by
  rw [decodeFields, h]

/-- R126, R96: a NaN word of any fraction is decoded and encoded again to the canonical one of its sign. -/
theorem encodeValue_decodeValue_of_nan {fmt : Fmt} {b : Bytes fmt.NB}
    (h : wordClass fmt (unpack fmt (word fmt b)) = .nan) : encodeValue fmt (decodeValue fmt b) =
      bytes fmt (pack fmt ⟨(unpack fmt (word fmt b)).s, fmt.emaxField, 2 ^ (fmt.T - 1)⟩) := by
  rw [decodeValue, decodeFields_of_nan h, encodeValue, encodeFields_nan, qnanBit_eq]

/-! ### Order -/

/-- The magnitude of finite fields: zero and the subnormals at the subnormal scale, a normal with its leading bit at
the scale of its exponent (R123, R124, R127). -/
def finiteMagnitude (fmt : Fmt) (E F : ℕ) : ℚ :=
  if E = 0 then F * 2 ^ fmt.subExp else (2 ^ fmt.T + F : ℕ) * 2 ^ (fmt.subExp + (E - 1))

@[simp] theorem finiteMagnitude_subnormal (fmt : Fmt) (F : ℕ) : finiteMagnitude fmt 0 F = F * 2 ^ fmt.subExp :=
  if_pos rfl

theorem finiteMagnitude_normal (fmt : Fmt) {E : ℕ} (hE : E ≠ 0) (F : ℕ) :
    finiteMagnitude fmt E F = (2 ^ fmt.T + F : ℕ) * 2 ^ (fmt.subExp + (E - 1)) :=
  if_neg hE

theorem finiteMagnitude_lt (fmt : Fmt) (E : ℕ) {F : ℕ} (hF : F < 2 ^ fmt.T) :
    finiteMagnitude fmt E F < 2 ^ (fmt.emin + E) := by
  by_cases hE : E = 0
  · subst hE
    simpa using subnormal_magnitude_lt hF
  · have hlt : ((2 ^ fmt.T + F : ℕ) : ℚ) < 2 ^ (fmt.T + 1) := by
      rw [pow_succ]
      exact_mod_cast (by omega : 2 ^ fmt.T + F < 2 ^ fmt.T * 2)
    have hscale : (2 : ℚ) ^ (fmt.emin + E) = 2 ^ (fmt.T + 1) * 2 ^ (fmt.subExp + (E - 1)) := by
      rw [← two_zpow_natCast_add, emin_eq_subExp_add]
      push_cast
      ring_nf
    rw [finiteMagnitude_normal fmt hE, hscale]
    gcongr

theorem le_finiteMagnitude (fmt : Fmt) {E : ℕ} (hE : E ≠ 0) (F : ℕ) :
    2 ^ (fmt.emin + (E - 1)) ≤ finiteMagnitude fmt E F := by
  rw [finiteMagnitude_normal fmt hE, emin_eq_subExp_add, add_assoc, add_left_comm, two_zpow_natCast_add]
  gcongr
  exact_mod_cast Nat.le_add_right ..

theorem finiteMagnitude_lt_of_F_lt (fmt : Fmt) (E : ℕ) {F F' : ℕ} (h : F < F') :
    finiteMagnitude fmt E F < finiteMagnitude fmt E F' := by
  unfold finiteMagnitude
  split <;> gcongr

/-- A larger exponent field is a larger magnitude, whatever the fractions: a power of two lies between. -/
theorem finiteMagnitude_lt_of_E_lt {fmt : Fmt} {E E' F : ℕ} (h : E < E') (hF : F < 2 ^ fmt.T) (F' : ℕ) :
    finiteMagnitude fmt E F < finiteMagnitude fmt E' F' := by
  refine (finiteMagnitude_lt fmt E hF).trans_le (le_trans ?_ (le_finiteMagnitude fmt (by omega) F'))
  exact zpow_le_zpow_right₀ (by norm_num) (by omega)

/-- A magnitude with its sign. -/
def signed : Sign → ℚ → ℚ
  | .plus, a => a
  | .minus, a => -a

@[simp] theorem signed_zero (s : Sign) : signed s 0 = 0 := by cases s <;> simp [signed]

@[simp] theorem number_zero (s : Sign) : number (.zero s) = some ((0 : ℚ) : WithTop ℚ) := rfl

theorem number_fin (s : Sign) (a : ℚ) : number (.fin s a) = some (signed s a : WithTop ℚ) := by
  cases s <;> rfl

/-- The number finite fields decode to. -/
theorem number_decodeFields (fmt : Fmt) (s : Sign) {E : ℕ} (hE : E < fmt.emaxField) (F : ℕ) :
    number (decodeFields fmt ⟨s, E, F⟩) = some (signed s (finiteMagnitude fmt E F) : WithTop ℚ) := by
  by_cases h0 : E = 0
  · subst h0
    by_cases hF : F = 0
    · simp [decodeFields_eq, hF]
    · rw [decodeFields_subnormal fmt s hF, number_fin, finiteMagnitude_subnormal]
  · rw [decodeFields_normal fmt s (by omega) hE, number_fin, finiteMagnitude_normal fmt h0]

/-- The order of R133 for a sign: `y` is above `x` for `+` and below it for `-`. -/
def Precedes (s : Sign) (x y : WithBot (WithTop ℚ)) : Prop :=
  match s with
  | .plus => x < y
  | .minus => y < x

theorem precedes_signed (s : Sign) {a c : ℚ} (h : a < c) :
    Precedes s ((signed s a : ℚ) : WithTop ℚ) ((signed s c : ℚ) : WithTop ℚ) := by
  cases s with
  | plus => exact WithBot.coe_lt_coe.mpr (WithTop.coe_lt_coe.mpr h)
  | minus => exact WithBot.coe_lt_coe.mpr (WithTop.coe_lt_coe.mpr (neg_lt_neg h))

/-- Every finite number comes before the infinity of its sign. -/
theorem exists_precedes_inf (s : Sign) (a : ℚ) :
    ∃ y, number (.inf s) = some y ∧ Precedes s ((signed s a : ℚ) : WithTop ℚ) y := by
  cases s with
  | plus => exact ⟨_, rfl, WithBot.coe_lt_coe.mpr (WithTop.coe_lt_top _)⟩
  | minus => exact ⟨_, rfl, WithBot.bot_lt_coe _⟩

/-- R133 on fields of a sign: those that are later by exponent, then by fraction, decode to a number that follows. -/
theorem decodeFields_precedes {fmt : Fmt} {f f' : Fields} (hs : f.s = f'.s) (hE' : f'.E ≤ fmt.emaxField)
    (hF : f.F < 2 ^ fmt.T) (hn' : wordClass fmt f' ≠ .nan) (hlt : f.E < f'.E ∨ f.E = f'.E ∧ f.F < f'.F) :
    ∃ x y, number (decodeFields fmt f) = some x ∧ number (decodeFields fmt f') = some y ∧ Precedes f.s x y := by
  obtain ⟨s, E, F⟩ := f
  obtain ⟨_, E', F'⟩ := f'
  dsimp only at hs hE' hF hlt ⊢
  subst hs
  have hnan : E' = fmt.emaxField → F' = 0 := by simpa [wordClass_eq_nan] using hn'
  have hfin : E < fmt.emaxField := by omega
  rcases hE'.lt_or_eq with hfin' | hinf
  · refine ⟨_, _, number_decodeFields fmt s hfin F, number_decodeFields fmt s hfin' F', precedes_signed s ?_⟩
    rcases hlt with hE | ⟨rfl, hF'⟩
    · exact finiteMagnitude_lt_of_E_lt hE hF F'
    · exact finiteMagnitude_lt_of_F_lt fmt E hF'
  · obtain ⟨y, hy, hprecedes⟩ := exists_precedes_inf s (finiteMagnitude fmt E F)
    refine ⟨_, y, number_decodeFields fmt s hfin F, ?_, hprecedes⟩
    rw [← hy, hnan hinf, hinf]
    simp [decodeFields_eq, (emaxField_pos fmt).ne']

/-- Of two words of a sign the larger has the later fields. -/
theorem unpack_lt_of_toNat_lt {fmt : Fmt} {w w' : Word fmt} (hs : (unpack fmt w).s = (unpack fmt w').s)
    (hlt : w.toNat < w'.toNat) : (unpack fmt w).E < (unpack fmt w').E ∨
      (unpack fmt w).E = (unpack fmt w').E ∧ (unpack fmt w).F < (unpack fmt w').F := by
  obtain ⟨hE, hF⟩ := unpack_ranges fmt w
  obtain ⟨hE', hF'⟩ := unpack_ranges fmt w'
  rw [← pack_unpack fmt w, ← pack_unpack fmt w', pack_toNat fmt hE hF, pack_toNat fmt hE' hF', hs] at hlt
  rcases lt_trichotomy (unpack fmt w).E (unpack fmt w').E with hexp | hexp | hexp
  · exact .inl hexp
  · exact .inr ⟨hexp, by rw [hexp] at hlt; omega⟩
  · have hgap := Nat.mul_le_mul_right (2 ^ fmt.T) (Nat.succ_le_of_lt hexp)
    rw [Nat.succ_mul] at hgap
    omega

/-- R133 on words: of two words of a sign, neither a NaN, the larger decodes to the number that follows. -/
theorem decodeValue_bytes_precedes {fmt : Fmt} {s : Sign} {w w' : Word fmt} (hs : (unpack fmt w).s = s)
    (hs' : (unpack fmt w').s = s) (hn' : wordClass fmt (unpack fmt w') ≠ .nan) (hlt : w.toNat < w'.toNat) :
    ∃ x y, number (decodeValue fmt (bytes fmt w)) = some x ∧ number (decodeValue fmt (bytes fmt w')) = some y ∧
      Precedes s x y := by
  have hsign := hs.trans hs'.symm
  rw [decodeValue, decodeValue, word_bytes, word_bytes, ← hs]
  exact decodeFields_precedes hsign (unpack_ranges fmt w').1 (unpack_ranges fmt w).2 hn' (unpack_lt_of_toNat_lt hsign hlt)

end Sys2Proof.Machine

/-!
The statements of 42_decode.md.
-/

namespace Sys2Proof.Machine

/-- Settles O29: a word that is no NaN has the fields its value is encoded with, a value of the format is what its
fields decode to, and every NaN is encoded with the quiet fraction. -/
theorem roundTrips : Obligations.RoundTrips :=
  ⟨fun _ _ => encodeValue_decodeValue, fun _ _ => encodeValue_decodeValue_of_nan,
    fun _ _ => decodeValue_encodeValue, decodeValue_encodeValue_nan⟩

/-- Settles O25: the word of the bytes unpacks to the fields the statement names, whose value goes by their class. -/
theorem decodersByClass : Obligations.DecodersByClass := by
  refine ⟨fun b st w E F s hw hE hF hs => exec_dec64_of_decodeValue st ?_,
    fun b st w E F s hw hE hF hs => exec_dec32_of_decodeValue st ?_⟩
  · rw [decodeValue, unpack_word_eq (fmt := .binary64) hw hE hF hs]
    exact decodeFields_eq .binary64 _
  · rw [decodeValue, unpack_word_eq (fmt := .binary32) hw hE hF hs]
    exact decodeFields_eq .binary32 _

/-- Settles O27: words of a sign are ordered as their fields are, and each exponent field has magnitudes of its own
between two powers of two. -/
theorem decodersKeepOrder : Obligations.DecodersKeepOrder :=
  ⟨fun _ _ _ hs hs' _ hn' hlt => decodeValue_bytes_precedes hs hs' hn' hlt,
    fun _ _ _ hs hs' _ hn' hlt => decodeValue_bytes_precedes hs hs' hn' hlt,
    rfl, by simp,
    fun fmt => ⟨_, _, decodeFields_subnormal fmt .plus (by cases fmt <;> decide),
      decodeFields_normal fmt .plus le_rfl (by cases fmt <;> decide) 0,
      (subnormal_magnitude_lt (by cases fmt <;> decide)).trans_le (le_normal_magnitude fmt le_rfl 0)⟩⟩

/-- Settles O28: the fields of the sweep are in range, so the value is that of the fields. -/
theorem exponentSweep : Obligations.ExponentSweep := by
  intro fmt E hE
  have hT : 1 < 2 ^ fmt.T := Nat.one_lt_two_pow (by cases fmt <;> decide)
  refine ⟨?_, ?_⟩
  · rw [decodeValue_bytes_pack fmt hE (by positivity), decodeFields_eq]
    simp
  · have hscale : ((2 : ℚ) ^ fmt.T + 1) / 2 ^ fmt.T * 2 ^ ((E : ℤ) - fmt.bias) =
        (2 ^ fmt.T + 1) * 2 ^ ((E : ℤ) - fmt.bias - fmt.T) := by
      rw [zpow_sub₀ (by norm_num) _ (fmt.T : ℤ), zpow_natCast, div_mul_eq_mul_div, mul_div_assoc]
    rw [decodeValue_bytes_pack fmt hE hT, decodeFields_eq]
    simp [hscale]

end Sys2Proof.Machine

/-!
Refusals (R157, R101, R102): which operands an encoder refuses, and how a refused request ends its run.
-/

namespace Sys2Proof.Machine

/-! ### Operands an encoder refuses -/

theorem exec_refused_iff {i : Instr} {s : State} :
    exec i s = .refused (.operandNotAdmitted i.op) ↔ ¬ admitted s.wideEnc32 i = true := by
  refine ⟨fun h ha => ?_, exec_of_not_admitted⟩
  rw [exec_of_admitted ha] at h
  cases h

theorem admittedEnc32_narrow (v : NumVal) : admittedEnc32 false v = inValueSet .binary32 v := by
  simp [admittedEnc32]

/-- R27: with `WIDE_ENC32` the two encoders take the same operands, `V32` being within `V64`. -/
theorem admittedEnc32_wide (v : NumVal) : admittedEnc32 true v = inValueSet .binary64 v := by
  rw [admittedEnc32, Bool.and_true, Bool.or_eq_right_iff_imp]
  exact inValueSet_binary64_of_binary32

/-! ### Requests refused as they are issued -/

/-- R69, R70: a raw request carries one request only, a malformed one included. -/
theorem encode_injective : Function.Injective encode := by
  intro i j h
  have hop : i.op = j.op := by
    simpa [encode] using congrArg (fun r => Op.ofBits r.op) h
  have hoperand : i.operand = j.operand := congrArg RawRequest.operand h
  match i, j, hop with
  | .enc64 _, .enc64 _, _ => rw [Operand.num.inj hoperand]
  | .dec64 _, .dec64 _, _ => rw [Vector.toList_inj.mp (Operand.bytes.inj hoperand)]
  | .enc32 _, .enc32 _, _ => rw [Operand.num.inj hoperand]
  | .dec32 _, .dec32 _, _ => rw [Vector.toList_inj.mp (Operand.bytes.inj hoperand)]

theorem issue_encode_of_not_admitted {i : Instr} {s : State} (caller : ℕ) (hwf : i.wellFormed = true)
    (ha : ¬ admitted s.wideEnc32 i = true) :
    s.issue caller (encode i) = .refused (.operandNotAdmitted i.op) := by
  simp [State.issue, boundary, decode_encode hwf, ha]

/-- The encoding of a request passes the boundary only where its operand is admitted. -/
theorem admitted_of_issue_encode {i : Instr} {s t : State} {caller : ℕ}
    (h : s.issue caller (encode i) = .next t) : admitted s.wideEnc32 i = true := by
  obtain ⟨⟨j, hd, ha⟩, _⟩ := issue_next_iff.mp h
  exact encode_injective (decode_eq_ok_iff.mp hd).2 ▸ ha

/-! ### Refused runs -/

theorem after_safe {e : Event} {s t : State} (h : s.after e = .next t) (hsafe : s.Safe) : t.Safe := by
  cases e with
  | step => exact step_safe h hsafe
  | issue caller raw =>
    obtain ⟨⟨i, hd, ha⟩, rfl⟩ := issue_next_iff.mp h
    exact enqueue_safe caller raw hsafe hd ha
  | platformReset =>
    cases h
    exact safe_of_requests_nil rfl
  | idle =>
    cases h
    exact hsafe

theorem run_safe {events : List Event} {s t : State} (h : s.run events = .next t) (hsafe : s.Safe) : t.Safe := by
  induction events generalizing s with
  | nil =>
    cases h
    exact hsafe
  | cons e es ih =>
    obtain ⟨u, hu, hrun⟩ := run_cons_next_iff.mp h
    exact ih hrun (after_safe hu hsafe)

/-- There are no faults (R151, R156): a run reaches a state or is refused. -/
theorem run_next_or_refused (events : List Event) (s : State) :
    (∃ t, s.run events = .next t) ∨ ∃ why, s.run events = .refused why := by
  cases s.run events with
  | next t => exact .inl ⟨t, rfl⟩
  | fault why => cases why
  | refused why => exact .inr ⟨why, rfl⟩

/-- Every request issued in a run that is not refused has an admitted operand. -/
theorem admitted_of_run_next {events : List Event} {s t : State} {caller : ℕ} {i : Instr}
    (h : s.run events = .next t) (hi : Event.issue caller (encode i) ∈ events) :
    admitted s.wideEnc32 i = true := by
  induction events generalizing s with
  | nil => cases hi
  | cons e es ih =>
    obtain ⟨u, hu, hrun⟩ := run_cons_next_iff.mp h
    obtain rfl | hi := List.mem_cons.mp hi
    · exact admitted_of_issue_encode hu
    · exact after_wideEnc32 hu ▸ ih hrun hi

theorem run_refused_of_issue {events : List Event} {s : State} {caller : ℕ} {i : Instr}
    (hi : Event.issue caller (encode i) ∈ events) (ha : ¬ admitted s.wideEnc32 i = true) :
    ∃ why, s.run events = .refused why :=
  (run_next_or_refused events s).resolve_left fun ⟨_, h⟩ => ha (admitted_of_run_next h hi)

end Sys2Proof.Machine

/-!
The statements of 60_exceptions.md.
-/

namespace Sys2Proof.Machine

/-- Settles O22: a finite operand is refused outside the value set of its encoder, binary64's for wide ENC32. -/
theorem encodersRefuseNotAdmitted : Obligations.EncodersRefuseNotAdmitted := by
  refine ⟨fun s a st => ?_, fun s a st hnarrow => ?_, fun s a st hwide => ?_⟩
  · exact exec_refused_iff.trans (not_congr isMagnitudeOf_iff)
  · refine exec_refused_iff.trans (not_congr ?_)
    rw [admitted, hnarrow, admittedEnc32_narrow]
    exact isMagnitudeOf_iff
  · refine exec_refused_iff.trans (not_congr ?_)
    rw [admitted, hwide, admittedEnc32_wide]
    exact isMagnitudeOf_iff

/-- Settles O48: a run that is not refused issues admitted operands only, for `WIDE_ENC32` never changes, and no event
in it lets in a request the block does not define. -/
theorem notAdmittedRequestsRefuseTheRun : Obligations.NotAdmittedRequestsRefuseTheRun := by
  refine ⟨fun st caller v hwf ha => ?_, fun st caller v hwf ha => ?_, fun st events caller v h => ?_,
    fun st t events => run_safe⟩
  · exact issue_encode_of_not_admitted (i := .enc64 v) caller hwf (Bool.eq_false_iff.mp ha)
  · exact issue_encode_of_not_admitted (i := .enc32 v) caller hwf (Bool.eq_false_iff.mp ha)
  · obtain ⟨hi, ha⟩ | ⟨hi, ha⟩ := h
    · exact run_refused_of_issue (i := .enc64 v) hi (Bool.eq_false_iff.mp ha)
    · exact run_refused_of_issue (i := .enc32 v) hi (Bool.eq_false_iff.mp ha)

end Sys2Proof.Machine

/-!
The statements of 70_reset_and_hazards.md.
-/

namespace Sys2Proof.Machine

/-- Settles O23: an admitted operand is answered with the result of its operation, and any other is refused. -/
theorem admittedIsTheOnlyPrecondition : Obligations.AdmittedIsTheOnlyPrecondition :=
  fun i _ => ⟨fun ha => ⟨resultOf i, exec_of_admitted ha⟩,
    fun ha => exec_of_not_admitted (Bool.eq_false_iff.mp ha)⟩

/-- Settles O41: a platform reset empties the requests, so no step is left to take, and keeps `WIDE_ENC32`, the one
part of the state that the outcome of an operation depends on (O36). -/
theorem platformResetAbandons : Obligations.PlatformResetAbandons := by
  intro st i
  have hwide : st.wideEnc32 = st.platformReset.wideEnc32 := (platformReset_wideEnc32 st).symm
  exact ⟨platformReset_requests st, platformReset_responses st, platformReset_wideEnc32 st,
    step_of_requests_nil (platformReset_requests st),
    responseDependsOnRequestAlone.1 i st st.platformReset hwide⟩

end Sys2Proof.Machine
